-- ==== Sys2Proof/Config.lean ====
section
/-! DEFINITION. The implementation parameters of 00_scope.md R5 that are constants. The other rows of R5 are not
constants: `LEN` and `ROM` are supplied at construction and stand in State, and stack depth, RAM, pc and output sink
are unbounded. R276 ("No behaviour of the block is undefined for any ROM") leaves no free value to declare here. -/

namespace Sys2Proof.Config

/-- `NUM_OPCODES` (R5): opcodes 0x00 to 0x17. -/
def numOpcodes : Nat := 24

/-- The bitwise width (R5, R210): 32 bits, two's complement. -/
abbrev bitWidth : Nat := 32

end Sys2Proof.Config
end

