-- ==== Sys2Proof/Word.lean ====
section
/-! DEFINITION. The value domain and the ROM slot (00_scope.md R6, 10_state.md R21).

The block has no bits, bytes or words of its own: every ROM literal, stack entry, RAM cell and output value is one
exact rational number (R6, R57, R190). A slot is either such a number or an ill-formed token. -/

namespace Sys2Proof

/-- `Val`, the block's sole data type: the exact rationals, "with exact arithmetic and no rounding" (R6, D1). -/
abbrev Val := Rat

/-- One position of ROM (R21): `num v` is the spec's `Num(v)`; `bad` is `Bad`, "a token that is not a well-formed
numeric value". -/
inductive Slot where
  | num (v : Val)
  | bad
  deriving DecidableEq, Repr

end Sys2Proof
end

