-- ==== Sys2Proof/Machine/Numeric.lean ====
section
/-! DEFINITION. The numeric functions of the spec's notation (00_scope.md "Notation"), the truncating remainder
(44_arithmetic.md R197) and the 32-bit coercion of the bitwise instructions (45_bitwise.md R210, R211). -/

namespace Sys2Proof.Machine

/-- `trunc(v)`: "the integer part of `v` rounded toward zero" (Notation, R197). -/
def trunc (v : Val) : Int :=
  v.num.tdiv v.den

/-- `isInt(v)`: "holds when `v = trunc(v)`" (Notation). The test is on the exact value (D21). -/
def isInt (v : Val) : Bool :=
  v == (trunc v : Val)

/-- `rem(a, b) = a - b * trunc(a / b)`, for a non-zero `b` (R197). -/
def rem (a b : Val) : Val :=
  a - b * (trunc (a / b) : Val)

/-- The bits of `ToInt32(v)`: the representative of `trunc(v)` modulo 2^32, as a 32-bit word (R210). -/
def toInt32 (v : Val) : BitVec Config.bitWidth :=
  BitVec.ofInt Config.bitWidth (trunc v)

/-- A 32-bit word read as a signed integer, `sext_32`, and converted back to `Val` "as the same integer" (R211). -/
def ofInt32 (w : BitVec Config.bitWidth) : Val :=
  (w.toInt : Val)

end Sys2Proof.Machine
end

