-- ==== Sys2Proof/Syntax.lean ====
section
/-! DEFINITION. The instructions: one constructor per row of spec/opcode_table.json (30_encoding.md R85), in the
table's order. Only PUSH has an operand of its own, its literal (R80, R87); every other operand comes from the
operand stack, and "No instruction names a register" (R24). -/

namespace Sys2Proof

/-- The 24 instructions. -/
inductive Instr where
  /-- 0x00 NOP (R120). -/
  | nop
  /-- 0x01 PUSH imm (R121); the literal is "the whole value of the slot after the opcode" (R87). -/
  | push (imm : Val)
  /-- 0x02 DROP (R122). -/
  | drop
  /-- 0x03 DUP (R123). -/
  | dup
  /-- 0x04 OVER (R124). -/
  | overOp
  /-- 0x05 SWAP (R125). -/
  | swap
  /-- 0x06 LOAD (R140). -/
  | load
  /-- 0x07 STORE (R141). -/
  | store
  /-- 0x08 JMP (R155). -/
  | jmp
  /-- 0x09 JZ (R156). -/
  | jz
  /-- 0x0A JNZ (R157). -/
  | jnz
  /-- 0x0B JE (R158). -/
  | je
  /-- 0x0C JG (R159). -/
  | jg
  /-- 0x0D JL (R160). -/
  | jl
  /-- 0x0E HALT (R162). -/
  | halt
  /-- 0x0F OUT (R180). -/
  | out
  /-- 0x10 ADD (R192). -/
  | add
  /-- 0x11 SUB (R193). -/
  | sub
  /-- 0x12 MUL (R194). -/
  | mul
  /-- 0x13 DIV (R195). -/
  | div
  /-- 0x14 MOD (R196). -/
  | mod
  /-- 0x15 NOT (R212). -/
  | not
  /-- 0x16 AND (R213). -/
  | and
  /-- 0x17 OR (R214). -/
  | or
  deriving DecidableEq, Repr

end Sys2Proof
end

