-- ==== Sys2Proof/WellFormed.lean ====
section
/-! DEFINITION. Which terms are well formed.

An instruction has no ill-formed operand: PUSH's literal "may be any value of `Val`" with "no range limit" (R87) and
no other instruction has one. What can be ill formed is a ROM slot (R21), and so a ROM. -/

namespace Sys2Proof

/-- Every instruction term is well formed (R87). -/
def Instr.wellFormed : Instr → Bool
  | .nop | .push _ | .drop | .dup | .overOp | .swap | .load | .store => true
  | .jmp | .jz | .jnz | .je | .jg | .jl | .halt | .out => true
  | .add | .sub | .mul | .div | .mod | .not | .and | .or => true

/-- A slot holds a well-formed numeric value, or it is `Bad` (R21). -/
def Slot.wellFormed : Slot → Bool
  | .num _ => true
  | .bad => false

/-- A ROM with no ill-formed slot: no fetch from it raises IllegalValue (R82, R276). -/
def romWellFormed (rom : List Slot) : Bool :=
  rom.all Slot.wellFormed

end Sys2Proof
end

