-- ==== Sys2Proof/Decode.lean ====
section
/-! DEFINITION. The decoder and the encoder (30_encoding.md R80 to R95).

`decodeOpcode` is the spec's `Decode(v)`, on one value. `decode` reads one whole instruction from the slots at a
program counter. `encode` gives the slots of an instruction. -/

namespace Sys2Proof

/-- What an opcode alone says of the instruction (R80, R88): format S1 is one slot and the instruction is known;
format S2 is PUSH, whose literal is the slot that follows. -/
inductive Kind where
  | s1 (i : Instr)
  | s2Push
  deriving DecidableEq, Repr

/-- The class column of R85. -/
inductive InstrClass where
  | operate
  | push
  | branch
  | halt
  deriving DecidableEq, Repr

/-- One row of the decode table (R85): the columns opcode, mnemonic, kind, class, ROM literals, pops, pushes. For a
branch, `pops` is the offset pop and the condition operands together. -/
structure OpcodeRow where
  opcode : Nat
  mnemonic : String
  kind : Kind
  cls : InstrClass
  literals : Nat
  pops : Nat
  pushes : Nat
  deriving DecidableEq, Repr

/-- The decode table, "fixed and bit-exact" (R85). -/
def opcodeTable : List OpcodeRow :=
  [ ⟨0x00, "NOP",   .s1 .nop,   .operate, 0, 0, 0⟩,
    ⟨0x01, "PUSH",  .s2Push,    .push,    1, 0, 1⟩,
    ⟨0x02, "DROP",  .s1 .drop,  .operate, 0, 1, 0⟩,
    ⟨0x03, "DUP",   .s1 .dup,   .operate, 0, 1, 2⟩,
    ⟨0x04, "OVER",  .s1 .overOp,  .operate, 0, 2, 3⟩,
    ⟨0x05, "SWAP",  .s1 .swap,  .operate, 0, 2, 2⟩,
    ⟨0x06, "LOAD",  .s1 .load,  .operate, 0, 1, 1⟩,
    ⟨0x07, "STORE", .s1 .store, .operate, 0, 2, 0⟩,
    ⟨0x08, "JMP",   .s1 .jmp,   .branch,  0, 1 + 0, 0⟩,
    ⟨0x09, "JZ",    .s1 .jz,    .branch,  0, 1 + 1, 0⟩,
    ⟨0x0A, "JNZ",   .s1 .jnz,   .branch,  0, 1 + 1, 0⟩,
    ⟨0x0B, "JE",    .s1 .je,    .branch,  0, 1 + 2, 0⟩,
    ⟨0x0C, "JG",    .s1 .jg,    .branch,  0, 1 + 2, 0⟩,
    ⟨0x0D, "JL",    .s1 .jl,    .branch,  0, 1 + 2, 0⟩,
    ⟨0x0E, "HALT",  .s1 .halt,  .halt,    0, 0, 0⟩,
    ⟨0x0F, "OUT",   .s1 .out,   .operate, 0, 1, 0⟩ ] ++
  [ ⟨0x10, "ADD",   .s1 .add,   .operate, 0, 2, 1⟩,
    ⟨0x11, "SUB",   .s1 .sub,   .operate, 0, 2, 1⟩,
    ⟨0x12, "MUL",   .s1 .mul,   .operate, 0, 2, 1⟩,
    ⟨0x13, "DIV",   .s1 .div,   .operate, 0, 2, 1⟩,
    ⟨0x14, "MOD",   .s1 .mod,   .operate, 0, 2, 1⟩,
    ⟨0x15, "NOT",   .s1 .not,   .operate, 0, 1, 1⟩,
    ⟨0x16, "AND",   .s1 .and,   .operate, 0, 2, 1⟩,
    ⟨0x17, "OR",    .s1 .or,    .operate, 0, 2, 1⟩ ]

/-- `Decode(v)` (R84): the row `KIND[v]` when `v` is an integer in [0, 0x17], and no row otherwise, which is the
illegal opcode of R91. -/
def decodeRow (v : Val) : Option OpcodeRow :=
  if Machine.isInt v ∧ 0 ≤ v ∧ v ≤ 0x17 then opcodeTable[v.num.toNat]? else none

/-- The kind column of `Decode(v)` (R84). -/
def decodeOpcode (v : Val) : Option Kind :=
  (decodeRow v).map OpcodeRow.kind

/-- What the slots at a program counter hold: an instruction and the slots after it, or why there is none. -/
inductive Decoded where
  /-- A whole instruction, and the slots that follow it. -/
  | instr (i : Instr) (rest : List Slot)
  /-- There is no slot to fetch the opcode from (R82). -/
  | noOpcode
  /-- The opcode slot is `Bad` (R82, R91). -/
  | badOpcode
  /-- The opcode slot's value has no row (R84, R91). -/
  | illegalOpcode (v : Val)
  /-- PUSH is the last slot (R83). -/
  | noLiteral
  /-- PUSH's literal slot is `Bad` (R87). -/
  | badLiteral
  deriving DecidableEq, Repr

/-- The literal of a PUSH, from the slots after its opcode (R87). -/
def decodeLiteral : List Slot → Decoded
  | [] => .noLiteral
  | .bad :: _ => .badLiteral
  | .num imm :: rest => .instr (.push imm) rest

/-- Decode one instruction from a list of slots, total and rejecting by name (R80, R84, R87, R91). -/
def decode : List Slot → Decoded
  | [] => .noOpcode
  | .bad :: _ => .badOpcode
  | .num v :: rest =>
    match decodeOpcode v with
    | none => .illegalOpcode v
    | some (.s1 i) => .instr i rest
    | some .s2Push => decodeLiteral rest

/-! ### The encoder, from the same columns of R85 -/

/-- The opcode number of an instruction (R85). -/
def Instr.opcode : Instr → Nat
  | .nop => 0x00
  | .push _ => 0x01
  | .drop => 0x02
  | .dup => 0x03
  | .overOp => 0x04
  | .swap => 0x05
  | .load => 0x06
  | .store => 0x07
  | .jmp => 0x08
  | .jz => 0x09
  | .jnz => 0x0A
  | .je => 0x0B
  | .jg => 0x0C
  | .jl => 0x0D
  | .halt => 0x0E
  | .out => 0x0F
  | .add => 0x10
  | .sub => 0x11
  | .mul => 0x12
  | .div => 0x13
  | .mod => 0x14
  | .not => 0x15
  | .and => 0x16
  | .or => 0x17

/-- The literal slots of an instruction: one for PUSH, none for any other (R80, R88). -/
def Instr.literals : Instr → List Slot
  | .push imm => [.num imm]
  | .nop | .drop | .dup | .overOp | .swap | .load | .store => []
  | .jmp | .jz | .jnz | .je | .jg | .jl | .halt | .out => []
  | .add | .sub | .mul | .div | .mod | .not | .and | .or => []

/-- The slots of an instruction: "`PUSH x` as the two slots `0x01, x` and every other mnemonic as its one opcode
slot" (R95). -/
def encode (i : Instr) : List Slot :=
  .num (i.opcode : Val) :: i.literals

/-- The row of the decode table that an instruction is encoded by (R85, R86). -/
def Instr.row (i : Instr) : Option OpcodeRow :=
  opcodeTable[i.opcode]?

/-- How many stack entries an instruction pops: the pops column of R85, for a branch the offset and its operands. -/
def Instr.pops (i : Instr) : Nat :=
  (i.row.map OpcodeRow.pops).getD 0

/-- How many stack entries an instruction pushes: the pushes column of R85. -/
def Instr.pushes (i : Instr) : Nat :=
  (i.row.map OpcodeRow.pushes).getD 0

/-- The class column of R85. -/
def Instr.isBranch (i : Instr) : Bool :=
  i.row.map OpcodeRow.cls == some .branch

/-- The ROM of a list of instructions: each one's slots, in order, opcodes and literals interleaved (R81, R95). -/
def assemble (program : List Instr) : List Slot :=
  program.flatMap encode

/-- Read a ROM as a list of instructions, one after another from its first slot, with a bound on how many. -/
def disassembleWithin : Nat → List Slot → Option (List Instr)
  | _, [] => some []
  | 0, _ :: _ => none
  | bound + 1, slots =>
    match decode slots with
    | .instr i rest => (disassembleWithin bound rest).map (i :: ·)
    | .noOpcode | .badOpcode | .illegalOpcode _ | .noLiteral | .badLiteral => none

/-- Read a whole ROM as a list of instructions; a ROM has at most as many instructions as slots. -/
def disassemble (slots : List Slot) : Option (List Instr) :=
  disassembleWithin slots.length slots

/-! ### The host's table words -/

/-- The two slots that a table word stands for. A slot has no bits (R80), so this layout is the model's own:
DESIGN CHOICE, log 6. Bits 7..0 are the opcode slot's value, the bits above them the value of the slot after it. -/
def slotsOfWord (w : Nat) : List Slot :=
  [.num ((w % 256 : Nat) : Val), .num ((w / 256 : Nat) : Val)]

/-- The instruction the decoder reads from a table word (log 6). Every bit above `nbits` is 0 in `w` already. -/
def decodeTableWord (_nbits w : Nat) : Option Instr :=
  match decode (slotsOfWord w) with
  | .instr i _ => some i
  | .noOpcode | .badOpcode | .illegalOpcode _ | .noLiteral | .badLiteral => none

end Sys2Proof
end

