-- ==== Sys2Proof/Machine/State.lean ====
section
/-! DEFINITION. The state of the block as plain data (10_state.md R20), the reasons a step can stop, and reset
(70_reset_and_hazards.md R270). -/

namespace Sys2Proof.Machine

/-- RAM `M` (20_memory.md R50): pairs of a natural address and the value of its cell. The canonical form,
`Memory.wf` of Machine/Ops.lean, lists addresses strictly rising and no cell that holds 0, which is what an unlisted
address reads as. Cells hold whole values, not bytes (R57; log 5). -/
abbrev Memory := List (Nat × Val)

/-- The seven fault kinds of 60_exceptions.md R230, each with the diagnostic value of R231. -/
inductive FaultStatus where
  /-- Code 1: a `Bad` slot was fetched, at this slot index. -/
  | illegalValue (slot : Nat)
  /-- Code 2: an opcode with no row, of this value. -/
  | illegalOpcode (opcode : Val)
  /-- Code 3: a pop on an empty stack. -/
  | stackUnderflow
  /-- Code 4: a load or store at this negative or non-integer address. -/
  | illegalAddress (address : Val)
  /-- Code 5: a taken branch to this target, outside [0, LEN) or not an integer. -/
  | illegalJumpTarget (target : Val)
  /-- Code 6: a fetch at this slot index, at or past the end of ROM. -/
  | fetchOutOfRange (slot : Nat)
  /-- Code 7: DIV or MOD of this dividend by 0. -/
  | divisionByZero (dividend : Val)
  deriving DecidableEq, Repr

/-- The architectural state (R20). `SP` is `State.sp` of Machine/Ops.lean, a view and no field (R27). -/
structure State where
  /-- Program memory, immutable (R21); `LEN` is its length. A field here, a parameter in R20: log 1. -/
  rom : List Slot
  /-- Program counter: the index of the next ROM slot to fetch (R22). -/
  pc : Nat
  /-- Operand stack `S`, bottom first, "top last" (R20, R26). -/
  stack : List Val
  /-- Application memory `M` (R50). -/
  mem : Memory
  /-- Halted flag (R30). -/
  halted : Bool
  /-- Fault status (R31). -/
  fault : Option FaultStatus
  /-- Output sink contents, oldest first (R32). -/
  out : List Val
  deriving DecidableEq, Repr

/-- Why `step` stops with a fault. -/
inductive Fault where
  /-- Raised by `step` alone, on a state whose `fault` is already set: "a step request on a faulted state has no
  transition (it is not a no-op that reports success)" (R241, D11). Safe: nothing can be proved of a next state. -/
  | faulted (status : FaultStatus)
  deriving DecidableEq, Repr

/-- Why an instruction has no meaning. -/
inductive Refusal where
  /-- Raised by an arm of `exec` for an instruction with no meaning yet; no arm does. Safe: nothing can be proved of a
  next state. -/
  | notModelled (mnemonic : String)
  deriving DecidableEq, Repr

/-- `Reset(ROM)` (R270): the state constructed from a ROM, once per run. -/
def State.resetWith (rom : List Slot) : State where
  rom := rom
  pc := 0
  stack := []
  mem := []
  halted := rom.isEmpty
  fault := none
  out := []

/-- The machine right after reset with no program supplied: `Reset([])`, which is halted (R270, R271, C2; log 2). -/
def State.reset : State :=
  State.resetWith []

end Sys2Proof.Machine
end

