-- ==== Sys2Proof/Machine/Ops.lean ====
section
/-! DEFINITION. The shared operations: the micro-operations of R7, the state updates, RAM, the address translator,
the stack and fetch primitives, and raising a fault. -/

namespace Sys2Proof.Machine

/-! ### Named updates of the state -/

/-- `SP`, "the number of entries of `S`" (R27). -/
def State.sp (s : State) : Nat :=
  s.stack.length

/-- `LEN`, the length of ROM in slots (R5, R20). -/
def State.len (s : State) : Nat :=
  s.rom.length

/-- `pc <- target` (R22). -/
def State.setPc (target : Nat) (s : State) : State :=
  { s with pc := target }

/-- `S <- S ++ [v]` (R28). -/
def State.push (v : Val) (s : State) : State :=
  { s with stack := s.stack ++ [v] }

/-- `S <- S[0 .. SP-2]`, the update of Pop (R29). -/
def State.dropTop (s : State) : State :=
  { s with stack := s.stack.dropLast }

/-- `halted <- true` (R162, R90). -/
def State.setHalted (s : State) : State :=
  { s with halted := true }

/-- `Emit(v)`: `out <- out ++ [v]`, which "always succeeds and never waits" (R33). -/
def State.emit (v : Val) (s : State) : State :=
  { s with out := s.out ++ [v] }

/-- Raising a fault, the one shared operation: `fault <- K` with its diagnostic value and nothing else (R236, R239).
There is no return from a fault (R241). -/
def State.raise (f : FaultStatus) (s : State) : State :=
  { s with fault := some f }

/-! ### Micro-operations (R7) -/

/-- How a micro-operation ends: it is done and gives a result and a state, or it raised a fault and the state is the
one "at the moment of failure" (R236, R237). -/
inductive Micro (α : Type) where
  | done (result : α) (s : State)
  | raised (s : State)

/-- Two micro-operations in order: "a `raise` ends the instruction at once and no later statement runs" (Notation,
R236). -/
def Micro.andThen {α β : Type} (m : Micro α) (next : α → State → Micro β) : Micro β :=
  match m with
  | .done a s => next a s
  | .raised s => .raised s

/-- `raise K(info)` (R236). -/
def raise {α : Type} (f : FaultStatus) (s : State) : Micro α :=
  .raised (s.raise f)

/-- The end of an instruction. A raised fault is a NEXT state, with `fault` set (R31, R236; log 3). -/
def Micro.outcome (m : Micro Unit) : Host.Outcome State Fault Refusal :=
  match m with
  | .done _ s => .next s
  | .raised s => .next s

/-! ### RAM -/

/-- The canonical form of a memory: addresses strictly rising, and no cell that holds what an unlisted address reads
as (R50). -/
abbrev Memory.wf (m : Memory) : Prop :=
  m.Pairwise (fun c d => c.1 < d.1) ∧ ∀ c ∈ m, c.2 ≠ 0

/-- What an address that no cell lists reads as: "the additive identity (0)" (R50). -/
def Memory.unlisted : Val := 0

/-- `MemRead(a, 1)` (R54). -/
def Memory.read : Memory → Nat → Val
  | [], _ => Memory.unlisted
  | (b, w) :: rest, a => if a = b then w else Memory.read rest a

/-- A cell put before a canonical memory, left out when it holds what an unlisted address reads as. -/
def Memory.cons (a : Nat) (v : Val) (m : Memory) : Memory :=
  if v = Memory.unlisted then m else (a, v) :: m

/-- `MemWrite(a, 1, v)` (R55), keeping the canonical form. -/
def Memory.write : Memory → Nat → Val → Memory
  | [], a, v => Memory.cons a v []
  | (b, w) :: rest, a, v =>
    if a < b then Memory.cons a v ((b, w) :: rest)
    else if a = b then Memory.cons a v rest
    else (b, w) :: Memory.write rest a v

/-- `M[a] <- v` on the state (R55). -/
def State.writeMem (a : Nat) (v : Val) (s : State) : State :=
  { s with mem := Memory.write s.mem a v }

/-- The memory address translator `Addr(v)` as a function (R52): the identity on natural numbers, no address for a
negative or a fractional value. -/
def address? (v : Val) : Option Nat :=
  if v < 0 then none else if isInt v then some v.num.toNat else none

/-- `Addr(v)` with its fault (R52). -/
def addr (v : Val) (s : State) : Micro Nat :=
  match address? v with
  | none => raise (.illegalAddress v) s
  | some a => .done a s

/-! ### The operand stack -/

/-- `Pop()` (R29): the check is made at each call. -/
def pop (s : State) : Micro Val :=
  match s.stack.getLast? with
  | none => raise .stackUnderflow s
  | some v => .done v s.dropTop

/-- `Push` each result in order, the last one ending on top (R92). -/
def pushAll (results : List Val) (s : State) : State :=
  { s with stack := s.stack ++ results }

/-! ### Fetch -/

/-- The checks of `Fetch()` at the slot `pc`, which a failed fetch leaves unchanged (R82, D8). -/
def readSlot (s : State) : Micro Val :=
  match s.rom[s.pc]? with
  | none => raise (.fetchOutOfRange s.pc) s
  | some .bad => raise (.illegalValue s.pc) s
  | some (.num v) => .done v s

/-- `Fetch()` (R82): read the slot at `pc`, check it, advance `pc`. -/
def fetch (s : State) : Micro Val :=
  (readSlot s).andThen fun v s => .done v (s.setPc (s.pc + 1))

/-- `Decode(v)` on the state (R84): it changes nothing but may raise IllegalOpcode. -/
def decodeKind (v : Val) (s : State) : Micro Kind :=
  match decodeOpcode v with
  | none => raise (.illegalOpcode v) s
  | some k => .done k s

/-- The instruction of a kind: for PUSH its literal slot is read, with the checks of Fetch and without moving `pc`;
the advance is the instruction's own (R87, R88, R121; log 4). -/
def completeKind (k : Kind) (s : State) : Micro Instr :=
  match k with
  | .s1 i => .done i s
  | .s2Push => (readSlot s).andThen fun imm s => .done (.push imm) s

/-- The fetch and decode half of a cycle (R90): afterwards `pc` is the opcode's index plus 1. -/
def fetchInstr (s : State) : Micro Instr :=
  (fetch s).andThen fun v s => (decodeKind v s).andThen completeKind

end Sys2Proof.Machine
end

