-- ==== Sys2Proof/Machine/Operands.lean ====
section
/-! DEFINITION. The two operand combinators: operate (30_encoding.md R92, R93) for no, one or two pops, and branch
(42_control.md R150 to R152) for no, one or two condition operands. Operands reach the function "in their original
left-to-right program order", the deepest first. -/

namespace Sys2Proof.Machine

/-- A function of operate that only computes: its results, and no fault. -/
def results (rs : List Val) (s : State) : Micro (List Val) :=
  .done rs s

/-- Push what the function answered (R92). -/
def pushResults (rs : List Val) (s : State) : Micro Unit :=
  .done () (pushAll rs s)

/-- `operate(0, m, f)`. -/
def operate0 (f : State → Micro (List Val)) (s : State) : Micro Unit :=
  (f s).andThen pushResults

/-- `operate(1, m, f)`. -/
def operate1 (f : Val → State → Micro (List Val)) (s : State) : Micro Unit :=
  (pop s).andThen fun a s => (f a s).andThen pushResults

/-- `operate(2, m, f)`: the first Pop gives the top `b`, the second the deeper `a`. -/
def operate2 (f : Val → Val → State → Micro (List Val)) (s : State) : Micro Unit :=
  (pop s).andThen fun b s => (pop s).andThen fun a s => (f a b s).andThen pushResults

/-- A target that a branch may jump to: an integer with `0 <= target < LEN` (R150, R151). -/
def jumpTarget? (target : Val) (len : Nat) : Option Nat :=
  if isInt target ∧ 0 ≤ target ∧ target < (len : Val) then some target.num.toNat else none

/-- The end of a branch: `pc + off` is computed and checked only when the branch is taken (R150, R152, D5). -/
def branchTo (taken : Bool) (off : Val) (s : State) : Micro Unit :=
  if taken then
    match jumpTarget? ((s.pc : Val) + off) s.len with
    | none => raise (.illegalJumpTarget ((s.pc : Val) + off)) s
    | some target => .done () (s.setPc target)
  else .done () s

/-- `branch(0, cond)`. -/
def branch0 (taken : Bool) (s : State) : Micro Unit :=
  (pop s).andThen fun off s => branchTo taken off s

/-- `branch(1, cond)`: the offset is on top, the condition operand below it. -/
def branch1 (cond : Val → Bool) (s : State) : Micro Unit :=
  (pop s).andThen fun off s => (pop s).andThen fun a s => branchTo (cond a) off s

/-- `branch(2, cond)`: the offset is on top, `b` below it and `a` deepest. -/
def branch2 (cond : Val → Val → Bool) (s : State) : Micro Unit :=
  (pop s).andThen fun off s =>
    (pop s).andThen fun b s => (pop s).andThen fun a s => branchTo (cond a b) off s

end Sys2Proof.Machine
end

