-- ==== Sys2Proof/Machine/Arithmetic.lean ====
section
/-! DEFINITION. ADD, SUB, MUL, DIV and MOD on the exact rationals (44_arithmetic.md R190 to R197). -/

namespace Sys2Proof.Machine

/-- ADD (R192): `f(a, b) = (a + b)`. -/
def execAdd (s : State) : Host.Outcome State Fault Refusal :=
  (operate2 (fun a b => results [a + b]) s).outcome

/-- SUB (R193): `f(a, b) = (a - b)`, "deeper minus top". -/
def execSub (s : State) : Host.Outcome State Fault Refusal :=
  (operate2 (fun a b => results [a - b]) s).outcome

/-- MUL (R194): `f(a, b) = (a * b)`. -/
def execMul (s : State) : Host.Outcome State Fault Refusal :=
  (operate2 (fun a b => results [a * b]) s).outcome

/-- The divisor check of DIV and MOD: a zero divisor raises DivisionByZero with the dividend, "after both operands are
popped, with nothing pushed" (R191, D2). -/
def divided (f : Val → Val → Val) (a b : Val) (s : State) : Micro (List Val) :=
  if b = 0 then raise (.divisionByZero a) s else results [f a b] s

/-- DIV (R195): the exact quotient. -/
def execDiv (s : State) : Host.Outcome State Fault Refusal :=
  (operate2 (divided fun a b => a / b) s).outcome

/-- MOD (R196): the truncating remainder. -/
def execMod (s : State) : Host.Outcome State Fault Refusal :=
  (operate2 (divided rem) s).outcome

end Sys2Proof.Machine
end

