-- ==== Sys2Proof/Machine/Bitwise.lean ====
section
/-! DEFINITION. NOT, AND and OR on the 32-bit coercions of their operands (45_bitwise.md R210 to R215). -/

namespace Sys2Proof.Machine

/-- NOT (R212): the complement of the 32 bits, "equal to -ToInt32(a) - 1". -/
def execNot (s : State) : Host.Outcome State Fault Refusal :=
  (operate1 (fun a => results [ofInt32 (~~~ toInt32 a)]) s).outcome

/-- AND (R213). -/
def execAnd (s : State) : Host.Outcome State Fault Refusal :=
  (operate2 (fun a b => results [ofInt32 (toInt32 a &&& toInt32 b)]) s).outcome

/-- OR (R214). -/
def execOr (s : State) : Host.Outcome State Fault Refusal :=
  (operate2 (fun a b => results [ofInt32 (toInt32 a ||| toInt32 b)]) s).outcome

end Sys2Proof.Machine
end

