-- ==== Sys2Proof/Machine/Flags.lean ====
section
/-! DEFINITION. The flags. The block has no condition codes (R190); its one flag is `halted` (R30), which the end
check of a cycle writes, and its one status is the STATUS view (R34). The branch conditions compare popped values
(R156 to R160, R198). -/

namespace Sys2Proof.Machine

/-- The condition of JMP (R155). -/
def condAlways : Bool := true

/-- The condition of JZ (R156). -/
def condZero (a : Val) : Bool := a == 0

/-- The condition of JNZ (R157). -/
def condNonzero (a : Val) : Bool := a != 0

/-- The condition of JE (R158). -/
def condEqual (a b : Val) : Bool := a == b

/-- The condition of JG (R159). -/
def condGreater (a b : Val) : Bool := decide (a > b)

/-- The condition of JL (R160). -/
def condLess (a b : Val) : Bool := decide (a < b)

/-- The end check of the cycle (R90): unless the instruction set `halted` itself, `pc >= LEN` halts. It does not run
in a cycle that raised a fault (R31, R236). -/
def endCheck (s : State) : State :=
  if s.fault = none ∧ s.halted = false ∧ s.len ≤ s.pc then s.setHalted else s

/-- The end check after an instruction's outcome (R90). -/
def endCycle : Host.Outcome State Fault Refusal → Host.Outcome State Fault Refusal
  | .next s => .next (endCheck s)
  | .fault f => .fault f
  | .refused r => .refused r

/-- The values of `STATUS.state` (R34). -/
inductive RunStatus where
  | running
  | halted
  | faulted
  deriving DecidableEq, Repr

/-- `STATUS.state`: FAULTED if `fault` is set, else HALTED if `halted`, else RUNNING (R34). -/
def State.status (s : State) : RunStatus :=
  match s.fault with
  | some _ => .faulted
  | none => if s.halted then .halted else .running

/-- The numeric cause code of a fault kind (R230, R231, D7). -/
def FaultStatus.code : FaultStatus → Nat
  | .illegalValue _ => 1
  | .illegalOpcode _ => 2
  | .stackUnderflow => 3
  | .illegalAddress _ => 4
  | .illegalJumpTarget _ => 5
  | .fetchOutOfRange _ => 6
  | .divisionByZero _ => 7

/-- `STATUS.cause`: the code of `fault`, 0 for none (R34). -/
def State.cause (s : State) : Nat :=
  match s.fault with
  | none => 0
  | some f => f.code

end Sys2Proof.Machine
end

