-- ==== Sys2Proof/Machine/Control.lean ====
section
/-! DEFINITION. The jumps and HALT (42_control.md R155 to R162). -/

namespace Sys2Proof.Machine

/-- JMP (R155): `branch(0, cond)` with `cond() = true`. -/
def execJmp (s : State) : Host.Outcome State Fault Refusal :=
  (branch0 condAlways s).outcome

/-- JZ (R156): `cond(a) = (a = 0)`. -/
def execJz (s : State) : Host.Outcome State Fault Refusal :=
  (branch1 condZero s).outcome

/-- JNZ (R157): `cond(a) = (a != 0)`. -/
def execJnz (s : State) : Host.Outcome State Fault Refusal :=
  (branch1 condNonzero s).outcome

/-- JE (R158): `cond(a, b) = (a = b)`. -/
def execJe (s : State) : Host.Outcome State Fault Refusal :=
  (branch2 condEqual s).outcome

/-- JG (R159): `cond(a, b) = (a > b)`. -/
def execJg (s : State) : Host.Outcome State Fault Refusal :=
  (branch2 condGreater s).outcome

/-- JL (R160): `cond(a, b) = (a < b)`. -/
def execJl (s : State) : Host.Outcome State Fault Refusal :=
  (branch2 condLess s).outcome

/-- HALT (R162): `halted <- true`. -/
def execHalt (s : State) : Host.Outcome State Fault Refusal :=
  .next s.setHalted

end Sys2Proof.Machine
end

