-- ==== Sys2Proof/Machine/MemoryAccess.lean ====
section
/-! DEFINITION. LOAD and STORE (41_memory_access.md R140, R141). -/

namespace Sys2Proof.Machine

/-- LOAD (R140): `f(address) = (load(address))`, after the address check. -/
def execLoad (s : State) : Host.Outcome State Fault Refusal :=
  (operate1 (fun t s => (addr t s).andThen fun a s => results [Memory.read s.mem a] s) s).outcome

/-- STORE (R141): `f(address, value)` writes `value` at `address`, after both pops and the address check. -/
def execStore (s : State) : Host.Outcome State Fault Refusal :=
  (operate2 (fun t v s => (addr t s).andThen fun a s => results [] (s.writeMem a v)) s).outcome

end Sys2Proof.Machine
end

