-- ==== Sys2Proof/Machine/Output.lean ====
section
/-! DEFINITION. OUT (43_output.md R180). -/

namespace Sys2Proof.Machine

/-- OUT (R180): pop one value and emit it. -/
def execOut (s : State) : Host.Outcome State Fault Refusal :=
  (operate1 (fun a s => results [] (s.emit a)) s).outcome

end Sys2Proof.Machine
end

