-- ==== Sys2Proof/Machine/Stack.lean ====
section
/-! DEFINITION. NOP and the stack instructions (40_stack.md R120 to R125). -/

namespace Sys2Proof.Machine

/-- NOP (R120): `operate(0, 0, f)` with `f() = ()`. -/
def execNop (s : State) : Host.Outcome State Fault Refusal :=
  (operate0 (results []) s).outcome

/-- PUSH (R121): the literal slot is consumed, `pc <- pc + 1`, and its value pushed. The checks of the literal fetch
were made by `completeKind` with `pc` at the literal (log 4). -/
def execPush (imm : Val) (s : State) : Host.Outcome State Fault Refusal :=
  (pushResults [imm] (s.setPc (s.pc + 1))).outcome

/-- DROP (R122): `f(a) = ()`. -/
def execDrop (s : State) : Host.Outcome State Fault Refusal :=
  (operate1 (fun _ => results []) s).outcome

/-- DUP (R123): `f(a) = (a, a)`. -/
def execDup (s : State) : Host.Outcome State Fault Refusal :=
  (operate1 (fun a => results [a, a]) s).outcome

/-- OVER (R124): `f(a, b) = (a, b, a)`. -/
def execOver (s : State) : Host.Outcome State Fault Refusal :=
  (operate2 (fun a b => results [a, b, a]) s).outcome

/-- SWAP (R125): `f(a, b) = (b, a)`. -/
def execSwap (s : State) : Host.Outcome State Fault Refusal :=
  (operate2 (fun a b => results [b, a]) s).outcome

end Sys2Proof.Machine
end

