-- ==== Sys2Proof/Machine/Dispatch.lean ====
section
/-! DEFINITION. `Execute(k)` of the cycle (30_encoding.md R90): one arm per instruction. It runs in the state after the
opcode fetch and does not look at `halted` or `fault`, which the cycle checks before it (log 7). -/

namespace Sys2Proof.Machine

def exec (i : Instr) (s : State) : Host.Outcome State Fault Refusal :=
  match i with
  | .nop => Sys2Proof.Machine.execNop s
  | .push imm => Sys2Proof.Machine.execPush imm s
  | .drop => Sys2Proof.Machine.execDrop s
  | .dup => Sys2Proof.Machine.execDup s
  | .overOp => Sys2Proof.Machine.execOver s
  | .swap => Sys2Proof.Machine.execSwap s
  | .load => Sys2Proof.Machine.execLoad s
  | .store => Sys2Proof.Machine.execStore s
  | .jmp => Sys2Proof.Machine.execJmp s
  | .jz => Sys2Proof.Machine.execJz s
  | .jnz => Sys2Proof.Machine.execJnz s
  | .je => Sys2Proof.Machine.execJe s
  | .jg => Sys2Proof.Machine.execJg s
  | .jl => Sys2Proof.Machine.execJl s
  | .halt => Sys2Proof.Machine.execHalt s
  | .out => Sys2Proof.Machine.execOut s
  | .add => Sys2Proof.Machine.execAdd s
  | .sub => Sys2Proof.Machine.execSub s
  | .mul => Sys2Proof.Machine.execMul s
  | .div => Sys2Proof.Machine.execDiv s
  | .mod => Sys2Proof.Machine.execMod s
  | .not => Sys2Proof.Machine.execNot s
  | .and => Sys2Proof.Machine.execAnd s
  | .or => Sys2Proof.Machine.execOr s

end Sys2Proof.Machine
end

