-- ==== Sys2Proof/Machine/Step.lean ====
section
/-! DEFINITION. The cycle, "the block's one state transition" (30_encoding.md R90), and the placing of an instruction
for the host's checks. -/

namespace Sys2Proof.Machine

/-- `Cycle()` (R90): a faulted state has no transition, a halted state is left as it is, and a running state fetches,
decodes and executes one instruction and then makes the end check. A fault raised on the way ends the cycle. -/
def step (s : State) : Host.Outcome State Fault Refusal :=
  match s.fault with
  | some f => .fault (.faulted f)
  | none =>
    if s.halted then .next s
    else
      match fetchInstr s with
      | .raised t => .next t
      | .done i t => endCycle (exec i t)

/-- `s` with the instruction of a table word in the slots at its `pc`, running. ROM is supplied from outside before a
run (R35, R270), so this stands for that load: the two slots of the word replace those at `pc` and `pc + 1`, an
unreachable gap before `pc` is filled with `Bad`, and a halted or faulted status is cleared, as Reset of a ROM that
long leaves it (logs 2 and 6). -/
def State.withFetchWord (s : State) (_nbits w : Nat) : State :=
  { s with
    rom := s.rom.take s.pc ++ List.replicate (s.pc - s.rom.length) .bad ++ slotsOfWord w ++ s.rom.drop (s.pc + 2)
    halted := false
    fault := none }

end Sys2Proof.Machine
end

