-- ==== Sys2Proof/Machine/RunDriver.lean ====
section
/-! DEFINITION. The run driver (70_reset_and_hazards.md R273), the agent outside the block that constructs the state
and repeats cycles "until halted". A run may never end (R163), so the loop here has a bound on its cycles and answers
`none` when the bound is used up (log 9). -/

namespace Sys2Proof.Machine

/-- The loop's test, `not halted and fault = none` (R273). -/
def State.isRunning (s : State) : Bool :=
  !s.halted && s.fault.isNone

/-- What the run driver returns: `(fault, pc, S, M, out)` (R273). -/
structure RunResult where
  fault : Option FaultStatus
  pc : Nat
  stack : List Val
  mem : Memory
  out : List Val
  deriving DecidableEq, Repr

/-- State inspection (R35, R273). -/
def State.inspect (s : State) : RunResult :=
  { fault := s.fault, pc := s.pc, stack := s.stack, mem := s.mem, out := s.out }

/-- The loop of `Run` for at most `bound` cycles: the state it ends in, or `none` if it is still running. -/
def drive : Nat → State → Option State
  | 0, s => if s.isRunning then none else some s
  | bound + 1, s =>
    if s.isRunning then
      match step s with
      | .next t => drive bound t
      | .fault _ => none
      | .refused _ => none
    else some s

/-- `Run(ROM)` for at most `bound` cycles (R273). -/
def runProgram (bound : Nat) (rom : List Slot) : Option RunResult :=
  (drive bound (State.resetWith rom)).map State.inspect

end Sys2Proof.Machine
end

