-- ==== Sys2Proof/Safety.lean ====
section
/-! DEFINITION. The terms in which claims speak of a run: what a running, a halted and an ended run is, which states a
run reaches, and the invariant of every state between cycles. -/

namespace Sys2Proof.Machine

/-- A state a cycle runs in: neither halted nor faulted (R90). -/
abbrev State.Running (s : State) : Prop :=
  s.halted = false ∧ s.fault = none

/-- The end of a run: "a state with `halted = true` and `fault = none`" (R274). -/
abbrev State.EndOfRun (s : State) : Prop :=
  s.halted = true ∧ s.fault = none

/-- The observable result of a run: `out`, the final stack and the final memory (R274). -/
def State.observation (s : State) : List Val × List Val × Memory :=
  (s.out, s.stack, s.mem)

/-- The states a run of a program reaches: its reset state and every next state of one (R270, R273). -/
inductive Reachable (rom : List Slot) : State → Prop where
  | atReset : Reachable rom (State.resetWith rom)
  | afterStep {s t : State} (before : Reachable rom s) (cycle : step s = .next t) : Reachable rom t

/-- A run from one state to another in which no cycle executes a STORE whose address operand is `a`. -/
inductive NoStoreTo (a : Nat) : State → State → Prop where
  | here (s : State) : NoStoreTo a s s
  | onward {s t u : State} (before : NoStoreTo a s t) (cycle : step t = .next u)
      (other : ∀ rest base v, decode (t.rom.drop t.pc) = .instr .store rest → t.stack ≠ base ++ [(a : Val), v]) :
      NoStoreTo a s u

/-- What holds of every state between cycles: memory is in canonical form (R50), `pc` lies in [0, LEN] and equals `LEN`
only in a halted or faulted state (R23), and `halted` and `fault` are not both set (R31). -/
structure State.Inv (s : State) : Prop where
  memWf : Memory.wf s.mem
  pcInRange : s.pc ≤ s.len
  pcAtEnd : s.pc = s.len → s.halted = true ∨ s.fault ≠ none
  notBoth : ¬(s.halted = true ∧ s.fault ≠ none)

end Sys2Proof.Machine
end

