-- ==== Sys2Proof/Certificates/Slice0/Obligations.lean ====
section
/-! DEFINITION. The statements for the provers. Each docstring names the rule of spec/ it formalises; "derived" ones
say which decision of spec/92_eei_decisions.md or which log entry they rest on. Instructions are stated at `exec`,
whose state has `pc` after the opcode slot (R23); `step` is tied to `exec` by StepRunsTheDecodedInstruction. -/

open Sys2Proof Sys2Proof.Machine

namespace Sys2Proof.SpecForm

/-- "rounded toward zero" (Notation), in Mathlib's floor and ceiling. -/
def towardZero (v : Val) : Int :=
  if 0 ≤ v then ⌊v⌋ else ⌈v⌉

/-- `ToInt32` of an integer (R210): its representative modulo 2^32, sign extended. -/
def signed32 (t : Int) : Int :=
  if 2 ^ 31 ≤ t % 2 ^ 32 then t % 2 ^ 32 - 2 ^ 32 else t % 2 ^ 32

/-- `bits[i:i]` of an integer (Notation): `floor(t / 2^i) mod 2`. -/
def bit (t : Int) (i : Nat) : Int :=
  t / 2 ^ i % 2

/-- When a branch is taken, from the stack it finds (R155 to R160). -/
def Taken (i : Instr) (stack : List Val) : Prop :=
  (i = .jmp) ∨
  (i = .jz ∧ ∃ base off, stack = base ++ [0, off]) ∨
  (i = .jnz ∧ ∃ base a off, stack = base ++ [a, off] ∧ a ≠ 0) ∨
  (i = .je ∧ ∃ base a off, stack = base ++ [a, a, off]) ∨
  (i = .jg ∧ ∃ base a b off, stack = base ++ [a, b, off] ∧ a > b) ∨
  (i = .jl ∧ ∃ base a b off, stack = base ++ [a, b, off] ∧ a < b)

/-- The state a cycle leaves when its instruction left `t`: the end check of R90 written out. -/
def afterEndCheck (t : State) : State :=
  if t.fault = none ∧ t.halted = false ∧ t.rom.length ≤ t.pc then { t with halted := true } else t

end Sys2Proof.SpecForm

open Sys2Proof.SpecForm

/-! ### Reset, the cycle and the run driver -/

/-- R270 and R20, every field of the state right after reset. Derived: `halted` is the spec's decision D10, and
State.reset being the reset of the empty ROM is the model's choice (log 2). -/
def Obligations.ResetOfARomSetsEveryField : Prop :=
  State.reset = State.resetWith [] ∧
  ∀ rom : List Slot,
    (State.resetWith rom).rom = rom ∧ (State.resetWith rom).pc = 0 ∧ (State.resetWith rom).stack = [] ∧
    (State.resetWith rom).sp = 0 ∧ (∀ a, Memory.read (State.resetWith rom).mem a = 0) ∧
    ((State.resetWith rom).halted = true ↔ rom.length = 0) ∧ (State.resetWith rom).fault = none ∧
    (State.resetWith rom).out = [] ∧
    (State.resetWith rom).status = (if rom.length = 0 then .halted else .running) ∧ (State.resetWith rom).cause = 0

/-- R271: the run of a program of length 0 ends at once, in no cycle, in the halted state, with nothing done. -/
def Obligations.EmptyProgramEndsAtOnce : Prop :=
  ∀ bound : Nat, ∃ t, drive bound (State.resetWith []) = some t ∧ t.EndOfRun ∧ t = State.resetWith [] ∧
    t.stack = [] ∧ (∀ a, Memory.read t.mem a = 0) ∧ t.out = []

/-- R90 and R251: a halted state is left as it is by a step, and the run driver requests no
further cycle of it. Derived: that the step answers
the same state is decision D11. -/
def Obligations.HaltedStateIsLeftAsItIs : Prop :=
  ∀ s : State, s.EndOfRun → step s = .next s ∧ ∀ bound, drive bound s = some s

/-- R241 and R90: a faulted state has no transition. Derived: decision D11. -/
def Obligations.FaultedStateHasNoTransition : Prop :=
  ∀ (s : State) (f : FaultStatus), s.fault = some f → step s = .fault (.faulted f)

/-- R276: "No behaviour of the block is undefined for any ROM". Every state that is not faulted has a next state, and
so has every instruction. Derived: R276 is marked derived, and a raised fault being a next state is log 3. -/
def Obligations.EveryUnfaultedStateHasANextState : Prop :=
  (∀ s : State, s.fault = none → ∃ t, step s = .next t) ∧ ∀ (i : Instr) (s : State), ∃ t, exec i s = .next t

/-- R90: a running state whose slots at `pc` decode to an instruction takes the step of that instruction: `exec` in the
state with `pc` past the opcode slot, and then the end check. Derived: where PUSH's literal is read is log 4. -/
def Obligations.StepRunsTheDecodedInstruction : Prop :=
  ∀ (s : State) (i : Instr) (rest : List Slot), s.Running → i.wellFormed = true →
    decode (s.rom.drop s.pc) = .instr i rest →
    ∃ t, exec i { s with pc := s.pc + 1 } = .next t ∧ step s = .next (afterEndCheck t)

/-- R82, R84 and R121 on the fetches and the decode that fail, and the states they leave (R237). Derived: FetchOutOfRange
is decision D6, and where `pc` is left is decision D8. -/
def Obligations.FailedFetchOrDecodeRaisesItsFault : Prop :=
  ∀ s : State, s.Running →
    (s.rom.length ≤ s.pc → step s = .next { s with fault := some (.fetchOutOfRange s.pc) }) ∧
    (s.rom[s.pc]? = some .bad → step s = .next { s with fault := some (.illegalValue s.pc) }) ∧
    (∀ v, s.rom[s.pc]? = some (.num v) → (¬∃ n : Nat, n < 24 ∧ v = n) →
      step s = .next { s with pc := s.pc + 1, fault := some (.illegalOpcode v) }) ∧
    (s.rom[s.pc]? = some (.num 1) → s.pc + 1 = s.rom.length →
      step s = .next { s with pc := s.pc + 1, fault := some (.fetchOutOfRange (s.pc + 1)) }) ∧
    (s.rom[s.pc]? = some (.num 1) → s.rom[s.pc + 1]? = some .bad →
      step s = .next { s with pc := s.pc + 1, fault := some (.illegalValue (s.pc + 1)) })

/-- R91: every opcode value but the 24 integers raises IllegalOpcode, none of the 24 does, and a `Bad` opcode slot
raises IllegalValue. Derived: the diagnostic values it fixes are R231's, the spec's own (log 8). -/
def Obligations.IllegalOpcodesAreAllButTheTwentyFour : Prop :=
  ∀ s : State, s.Running →
    (∀ v, s.rom[s.pc]? = some (.num v) →
      ((∃ t, step s = .next t ∧ t.fault = some (.illegalOpcode v)) ↔ ¬∃ n : Nat, n ≤ 0x17 ∧ v = n) ∧
      ((∃ n : Nat, n ≤ 0x17 ∧ v = n) → ∃ k, decodeOpcode v = some k)) ∧
    (s.rom[s.pc]? = some .bad → ∃ t, step s = .next t ∧ t.fault = some (.illegalValue s.pc))

/-- R273: what the run driver returns is a halted or a faulted state, and it returns the same one however many more
cycles it would allow. Derived: the bound is the model's choice (log 9). -/
def Obligations.FinishedRunIsFinal : Prop :=
  ∀ (bound : Nat) (s t : State), drive bound s = some t →
    (t.halted = true ∨ t.fault ≠ none) ∧ ∀ more, drive (bound + more) s = some t

/-! ### Encoding -/

/-- R85: each opcode number, written out from the table, decodes to its instruction, and PUSH takes the slot after it. -/
def Obligations.OpcodeNumbersDecodeAsTheTableSays : Prop :=
  ∀ (rest : List Slot) (imm : Val),
    decode (.num 0x00 :: rest) = .instr .nop rest ∧ decode (.num 0x01 :: .num imm :: rest) = .instr (.push imm) rest ∧
    decode (.num 0x02 :: rest) = .instr .drop rest ∧ decode (.num 0x03 :: rest) = .instr .dup rest ∧
    decode (.num 0x04 :: rest) = .instr .overOp rest ∧ decode (.num 0x05 :: rest) = .instr .swap rest ∧
    decode (.num 0x06 :: rest) = .instr .load rest ∧ decode (.num 0x07 :: rest) = .instr .store rest ∧
    decode (.num 0x08 :: rest) = .instr .jmp rest ∧ decode (.num 0x09 :: rest) = .instr .jz rest ∧
    decode (.num 0x0A :: rest) = .instr .jnz rest ∧ decode (.num 0x0B :: rest) = .instr .je rest ∧
    decode (.num 0x0C :: rest) = .instr .jg rest ∧ decode (.num 0x0D :: rest) = .instr .jl rest ∧
    decode (.num 0x0E :: rest) = .instr .halt rest ∧ decode (.num 0x0F :: rest) = .instr .out rest ∧
    decode (.num 0x10 :: rest) = .instr .add rest ∧ decode (.num 0x11 :: rest) = .instr .sub rest ∧
    decode (.num 0x12 :: rest) = .instr .mul rest ∧ decode (.num 0x13 :: rest) = .instr .div rest ∧
    decode (.num 0x14 :: rest) = .instr .mod rest ∧ decode (.num 0x15 :: rest) = .instr .not rest ∧
    decode (.num 0x16 :: rest) = .instr .and rest ∧ decode (.num 0x17 :: rest) = .instr .or rest

/-- R81, R85, R88 and R95: reading the ROM assembled from any list of instructions gives back that list, every PUSH
with its literal, whatever value that is. -/
def Obligations.DisassemblingAnAssembledProgramGivesItBack : Prop :=
  ∀ program : List Instr, disassemble (assemble program) = some program

/-- R80, R84 and R85, the other direction: slots that decode to an instruction are its encoding and what follows, so no
two encodings share a meaning. -/
def Obligations.DecodedSlotsAreTheInstructionsEncoding : Prop :=
  ∀ (slots rest : List Slot) (i : Instr), decode slots = .instr i rest → slots = encode i ++ rest

/-- R81, R88, R90 and R95: in the ROM of an assembled program, a cycle that starts at the first slot of one of its
instructions executes that instruction, and an instruction that leaves `pc` to its fetches leads to the next one. -/
def Obligations.AssembledProgramRunsAsWritten : Prop :=
  ∀ (before after : List Instr) (i : Instr) (s : State), s.Running → s.rom = assemble (before ++ i :: after) →
    s.pc = (assemble before).length →
    (∃ t, exec i { s with pc := s.pc + 1 } = .next t ∧ step s = .next (afterEndCheck t)) ∧
    (i.isBranch = false → ∀ u, step s = .next u → u.fault = none → u.pc = (assemble (before ++ [i])).length)

/-! ### Stack instructions -/

/-- R120: NOP changes nothing but `pc`, which the opcode fetch advances by 1; in the last slot the end check halts. -/
def Obligations.NopChangesNothing : Prop :=
  encode .nop = [.num 0x00] ∧ (∀ s : State, exec .nop s = .next s) ∧
  ∀ s : State, s.Running → s.rom[s.pc]? = some (.num 0x00) →
    step s = .next { s with pc := s.pc + 1, halted := decide (s.rom.length = s.pc + 1) }

/-- R121: PUSH takes exactly one literal, the slot after its opcode, pushes it and moves `pc` past it, and the faults of
the literal fetch push nothing and leave `pc` at the literal. Derived: those faults are decisions D6 and D8. -/
def Obligations.PushTakesTheSlotAfterItsOpcode : Prop :=
  (∀ imm : Val, encode (.push imm) = [.num 0x01, .num imm]) ∧
  (∀ (s : State) (imm : Val), exec (.push imm) s = .next { s with pc := s.pc + 1, stack := s.stack ++ [imm] }) ∧
  ∀ s : State, s.Running → s.rom[s.pc]? = some (.num 0x01) →
    (∀ imm, s.rom[s.pc + 1]? = some (.num imm) →
      step s = .next { s with
        pc := s.pc + 2, stack := s.stack ++ [imm], halted := decide (s.rom.length = s.pc + 2) }) ∧
    (s.pc + 1 = s.rom.length →
      step s = .next { s with pc := s.pc + 1, fault := some (.fetchOutOfRange (s.pc + 1)) }) ∧
    (s.rom[s.pc + 1]? = some .bad →
      step s = .next { s with pc := s.pc + 1, fault := some (.illegalValue (s.pc + 1)) })

/-- R122 and R123: DROP discards the top and DUP copies it, and nothing else changes; on an empty stack they raise
StackUnderflow and the stack stays empty. -/
def Obligations.DropDiscardsAndDupCopiesTheTop : Prop :=
  encode .drop = [.num 0x02] ∧ encode .dup = [.num 0x03] ∧
  ∀ s : State,
    (∀ base a, s.stack = base ++ [a] →
      exec .drop s = .next { s with stack := base } ∧ exec .dup s = .next { s with stack := base ++ [a, a] }) ∧
    (s.sp = 0 →
      exec .drop s = .next { s with fault := some .stackUnderflow } ∧
      exec .dup s = .next { s with fault := some .stackUnderflow })

/-- R124 and R125: OVER copies the second entry to the top and SWAP exchanges the top two, and nothing else changes; with
fewer than two entries they raise StackUnderflow and the stack is left empty. Derived: that the entry popped before the
fault is gone is decision D9. -/
def Obligations.OverCopiesAndSwapExchangesTheSecondEntry : Prop :=
  encode .overOp = [.num 0x04] ∧ encode .swap = [.num 0x05] ∧
  ∀ s : State,
    (∀ base a b, s.stack = base ++ [a, b] →
      exec .overOp s = .next { s with stack := base ++ [a, b, a] } ∧
      exec .swap s = .next { s with stack := base ++ [b, a] }) ∧
    (s.sp < 2 →
      exec .overOp s = .next { s with stack := [], fault := some .stackUnderflow } ∧
      exec .swap s = .next { s with stack := [], fault := some .stackUnderflow })

/-- R126, the LIFO law, on the primitives Push (R28) and Pop (R29). -/
def Obligations.PopReturnsTheLastValuePushed : Prop :=
  ∀ (s : State) (a b : Val), pop ((s.push a).push b) = .done b (s.push a) ∧ pop (s.push a) = .done a s

/-- R127, the DUP law: one entry deeper, and the two top entries equal. -/
def Obligations.DupDeepensByOneWithEqualTop : Prop :=
  ∀ s : State, 1 ≤ s.sp →
    ∃ t, exec .dup s = .next t ∧ t.sp = s.sp + 1 ∧ ∃ below a, t.stack = below ++ [a, a]

/-- R128, the SWAP law: twice is the identity, and the entries below the top two are untouched by both. -/
def Obligations.SwapTwiceIsTheIdentity : Prop :=
  ∀ s : State, 2 ≤ s.sp →
    ∃ t, exec .swap s = .next t ∧ exec .swap t = .next s ∧ t.stack.take (s.sp - 2) = s.stack.take (s.sp - 2)

/-- R26: "no instruction reads or writes an entry below the top except by popping down to it". A step that does not
run out of entries does the same with any entries below, and leaves them alone. Derived: it states that clause of R26
only. -/
def Obligations.EntriesBelowAreNeitherReadNorWritten : Prop :=
  ∀ (s t : State) (below : List Val), step s = .next t → t.fault ≠ some .stackUnderflow →
    step { s with stack := below ++ s.stack } = .next { t with stack := below ++ t.stack }

/-! ### Memory -/

/-- R55 and R56: a write changes its cell and no other; what is read back, with any writes to other addresses in
between, is what was written; an address never written reads 0. -/
def Obligations.ReadsReturnTheLatestWrite : Prop :=
  (∀ (m : Memory) (a b : Nat) (v : Val), Memory.wf m → b ≠ a →
    Memory.read (Memory.write m a v) b = Memory.read m b) ∧
  (∀ (m : Memory) (a : Nat) (v : Val) (others : List (Nat × Val)), Memory.wf m → (∀ w ∈ others, w.1 ≠ a) →
    Memory.read (others.foldl (fun m w => Memory.write m w.1 w.2) (Memory.write m a v)) a = v) ∧
  (∀ (a : Nat) (others : List (Nat × Val)), (∀ w ∈ others, w.1 ≠ a) →
    Memory.read (others.foldl (fun m w => Memory.write m w.1 w.2) []) a = 0)

/-- R50: `M` is a function on addresses, and the canonical form is one list for each such function. Derived: the form
is the model's choice (log 5). -/
def Obligations.EqualContentsAreEqualMemories : Prop :=
  ∀ m n : Memory, Memory.wf m → Memory.wf n → (∀ a, Memory.read m a = Memory.read n a) → m = n

/-- R140: LOAD at a natural address, however large, replaces it by the value of its cell. Derived: part of R140, whose
fractional addresses are decision D3. -/
def Obligations.LoadPushesTheCellAtItsAddress : Prop :=
  encode .load = [.num 0x06] ∧
  ∀ (s : State) (base : List Val) (a : Nat), s.stack = base ++ [(a : Val)] →
    exec .load s = .next { s with stack := base ++ [Memory.read s.mem a] }

/-- R141: STORE at a natural address writes the value to that cell, pops both operands, and leaves every other cell and
the rest of the state alone. Derived: part of R141, whose fractional addresses are decision D3. -/
def Obligations.StoreWritesOnlyTheCellAtItsAddress : Prop :=
  encode .store = [.num 0x07] ∧
  ∀ (s : State) (base : List Val) (w v : Val) (a : Nat), Memory.wf s.mem → s.stack = base ++ [w, v] →
    address? w = some a →
    w = (a : Val) ∧ ∃ t, exec .store s = .next t ∧ Memory.read t.mem a = v ∧
      (∀ b, b ≠ a → Memory.read t.mem b = Memory.read s.mem b) ∧ t = { s with stack := base, mem := t.mem }

/-- R52, R140 and R141: an address that is no natural number raises IllegalAddress, after the pops, with M unchanged.
Derived: fractional addresses are decision D3, and what the fault leaves is decision D9. -/
def Obligations.AddressesThatAreNotNaturalFault : Prop :=
  ∀ (s : State) (base : List Val) (w v : Val), (∀ a : Nat, w ≠ a) →
    (s.stack = base ++ [w] →
      exec .load s = .next { s with stack := base, fault := some (.illegalAddress w) }) ∧
    (s.stack = base ++ [w, v] →
      exec .store s = .next { s with stack := base, fault := some (.illegalAddress w) })

/-- R142, the laws of the family: a LOAD after a STORE to its address with no store to it between pushes the stored
value; a LOAD of an address never written pushes 0; a negative address always fails with IllegalAddress. Derived: the
diagnostic value that the last clause fixes is R231's, the spec's own (log 8). -/
def Obligations.LoadsSeeTheLatestStore : Prop :=
  (∀ (s t u : State) (base base' : List Val) (a : Nat) (v : Val) (rest rest' : List Slot),
    s.Running → Memory.wf s.mem → decode (s.rom.drop s.pc) = .instr .store rest → s.stack = base ++ [(a : Val), v] →
    step s = .next t → NoStoreTo a t u → u.Running → decode (u.rom.drop u.pc) = .instr .load rest' →
    u.stack = base' ++ [(a : Val)] → ∃ w, step u = .next w ∧ w.fault = none ∧ w.stack = base' ++ [v]) ∧
  (∀ (rom : List Slot) (u : State) (base : List Val) (a : Nat) (rest : List Slot),
    NoStoreTo a (State.resetWith rom) u → u.Running → decode (u.rom.drop u.pc) = .instr .load rest →
    u.stack = base ++ [(a : Val)] → ∃ w, step u = .next w ∧ w.fault = none ∧ w.stack = base ++ [0]) ∧
  (∀ (s : State) (base : List Val) (w v : Val), w < 0 →
    (s.stack = base ++ [w] → ∃ t, exec .load s = .next t ∧ t.fault = some (.illegalAddress w)) ∧
    (s.stack = base ++ [w, v] → ∃ t, exec .store s = .next t ∧ t.fault = some (.illegalAddress w)))

/-! ### Control transfer -/

/-- R150, R151 and R155 to R160: a branch whose condition holds and whose target is a slot of ROM pops its operands and
jumps there. Derived: these rules in part; the targets that are no slot are TakenBranchOutsideRomFaults. -/
def Obligations.TakenBranchesJumpToTheirTarget : Prop :=
  ∀ (s : State) (base : List Val) (a b off : Val) (n : Nat), (s.pc : Val) + off = n → n < s.rom.length →
    (s.stack = base ++ [off] → exec .jmp s = .next { s with stack := base, pc := n }) ∧
    (s.stack = base ++ [a, off] →
      (a = 0 → exec .jz s = .next { s with stack := base, pc := n }) ∧
      (a ≠ 0 → exec .jnz s = .next { s with stack := base, pc := n })) ∧
    (s.stack = base ++ [a, b, off] →
      (a = b → exec .je s = .next { s with stack := base, pc := n }) ∧
      (a > b → exec .jg s = .next { s with stack := base, pc := n }) ∧
      (a < b → exec .jl s = .next { s with stack := base, pc := n }))

/-- R152: a branch whose condition is false pops its operands and falls through, whatever its offset. Derived: that the
target is not checked is decision D5. -/
def Obligations.BranchesNotTakenFallThrough : Prop :=
  ∀ (s : State) (base : List Val) (a b off : Val),
    (s.stack = base ++ [a, off] →
      (a ≠ 0 → exec .jz s = .next { s with stack := base }) ∧
      (a = 0 → exec .jnz s = .next { s with stack := base })) ∧
    (s.stack = base ++ [a, b, off] →
      (a ≠ b → exec .je s = .next { s with stack := base }) ∧
      (a ≤ b → exec .jg s = .next { s with stack := base }) ∧
      (a ≥ b → exec .jl s = .next { s with stack := base }))

/-- R150, R151 and R155 to R160: a taken branch whose target is not an integer in [0, LEN) raises IllegalJumpTarget with
`pc` after the opcode. Derived: fractional targets are decision D4, and what the fault leaves is decision D9. -/
def Obligations.TakenBranchOutsideRomFaults : Prop :=
  ∀ (s : State) (base : List Val) (a b off : Val), (∀ n : Nat, (s.pc : Val) + off = n → s.rom.length ≤ n) →
    (s.stack = base ++ [off] →
      exec .jmp s = .next { s with stack := base, fault := some (.illegalJumpTarget (s.pc + off)) }) ∧
    (s.stack = base ++ [a, off] →
      (a = 0 → exec .jz s = .next { s with stack := base, fault := some (.illegalJumpTarget (s.pc + off)) }) ∧
      (a ≠ 0 → exec .jnz s = .next { s with stack := base, fault := some (.illegalJumpTarget (s.pc + off)) })) ∧
    (s.stack = base ++ [a, b, off] →
      (a = b → exec .je s = .next { s with stack := base, fault := some (.illegalJumpTarget (s.pc + off)) }) ∧
      (a > b → exec .jg s = .next { s with stack := base, fault := some (.illegalJumpTarget (s.pc + off)) }) ∧
      (a < b → exec .jl s = .next { s with stack := base, fault := some (.illegalJumpTarget (s.pc + off)) }))

/-- R154: a jump to LEN or beyond, or below 0, fails; a taken branch leaves `pc < LEN` and is never followed by a halt of
the end check; a branch not taken halts exactly when it is in the last slot. Derived: the diagnostic value that the first
clause fixes is R231's, the spec's own (log 8). -/
def Obligations.NoBranchEndsARunByJumpingPastTheEnd : Prop :=
  (∀ (s : State) (base : List Val) (off : Val) (target : Int), s.stack = base ++ [off] →
    (s.pc : Val) + off = target → (target < 0 ∨ (s.rom.length : Int) ≤ target) →
    ∃ t, exec .jmp s = .next t ∧ t.fault = some (.illegalJumpTarget target)) ∧
  ∀ (s t : State) (i : Instr) (rest : List Slot), s.Running → i.isBranch = true →
    decode (s.rom.drop s.pc) = .instr i rest → step s = .next t → t.fault = none →
    (Taken i s.stack → t.pc < s.rom.length ∧ t.halted = false) ∧
    (¬Taken i s.stack → t.pc = s.pc + 1 ∧ (t.halted = true ↔ s.pc + 1 = s.rom.length))

/-- R162: HALT sets `halted` and nothing else; `pc` keeps the value after the opcode fetch, and no further cycle runs. -/
def Obligations.HaltStopsTheRun : Prop :=
  encode .halt = [.num 0x0E] ∧ (∀ s : State, exec .halt s = .next { s with halted := true }) ∧
  ∀ s : State, s.Running → s.rom[s.pc]? = some (.num 0x0E) →
    step s = .next { s with pc := s.pc + 1, halted := true } ∧
    ∀ bound, drive (bound + 1) s = some { s with pc := s.pc + 1, halted := true }

/-- R30 and R163: a cycle halts exactly by HALT or by leaving `pc` at or past the end without a fault. Derived: R30 also
gives the reset value, decision D10, which this does not state. -/
def Obligations.OnlyHaltAndTheEndCheckHalt : Prop :=
  ∀ s t : State, step s = .next t → s.halted = false →
    (t.halted = true ↔
      t.fault = none ∧ ((∃ rest, decode (s.rom.drop s.pc) = .instr .halt rest) ∨ s.rom.length ≤ t.pc))

/-! ### Output -/

/-- R180: OUT pops one value and emits exactly it; on an empty stack it raises StackUnderflow and emits nothing. -/
def Obligations.OutEmitsTheTop : Prop :=
  encode .out = [.num 0x0F] ∧
  ∀ s : State,
    (∀ base a, s.stack = base ++ [a] → exec .out s = .next { s with stack := base, out := s.out ++ [a] }) ∧
    (s.sp = 0 → exec .out s = .next { s with fault := some .stackUnderflow })

/-- R32: the output sink is empty at reset, an OUT that completes appends one value to it, no other cycle appends any,
and no step depends on what it holds. -/
def Obligations.OutputIsAppendedToAndNeverRead : Prop :=
  (∀ rom, (State.resetWith rom).out = []) ∧
  ∀ s t : State, step s = .next t →
    ∃ emitted : List Val, emitted.length ≤ 1 ∧ t.out = s.out ++ emitted ∧
      (emitted ≠ [] → ∃ rest, decode (s.rom.drop s.pc) = .instr .out rest) ∧
      (∀ rest, s.halted = false → decode (s.rom.drop s.pc) = .instr .out rest → t.fault = none →
        emitted.length = 1) ∧
      ∀ sink : List Val, step { s with out := sink } = .next { t with out := sink ++ emitted }

/-! ### Arithmetic -/

/-- R193 and R194, and R192 but for the entry that its fault pops: ADD, SUB and MUL replace their operands by the exact
result, the deeper operand first; with fewer than two entries they raise StackUnderflow. What a fault leaves on the stack
is decision D9 and stands in TooFewEntriesUnderflowBeforeAnyOtherFault. -/
def Obligations.AddSubMulAreExact : Prop :=
  encode .add = [.num 0x10] ∧ encode .sub = [.num 0x11] ∧ encode .mul = [.num 0x12] ∧
  ∀ s : State,
    (∀ base a b, s.stack = base ++ [a, b] →
      exec .add s = .next { s with stack := base ++ [a + b] } ∧
      exec .sub s = .next { s with stack := base ++ [a - b] } ∧
      exec .mul s = .next { s with stack := base ++ [a * b] }) ∧
    (s.sp < 2 → ∀ i, i = .add ∨ i = .sub ∨ i = .mul →
      ∃ t, exec i s = .next t ∧ t.fault = some .stackUnderflow)

/-- R195 and R196 for a divisor that is not 0: the exact quotient, and the truncating remainder. Derived: these rules in
part; a divisor of 0 is DivisionByZeroFaults. -/
def Obligations.DivModByANonzeroDivisor : Prop :=
  encode .div = [.num 0x13] ∧ encode .mod = [.num 0x14] ∧
  ∀ (s : State) (base : List Val) (a b : Val), s.stack = base ++ [a, b] → b ≠ 0 →
    exec .div s = .next { s with stack := base ++ [a / b] } ∧
    exec .mod s = .next { s with stack := base ++ [a - b * (towardZero (a / b) : Val)] }

/-- R191: DIV and MOD by 0 raise DivisionByZero after both pops, with nothing pushed, 0 / 0 included. Derived: decisions
D2 and D9. -/
def Obligations.DivisionByZeroFaults : Prop :=
  ∀ (s : State) (base : List Val) (a : Val), s.stack = base ++ [a, 0] →
    exec .div s = .next { s with stack := base, fault := some (.divisionByZero a) } ∧
    exec .mod s = .next { s with stack := base, fault := some (.divisionByZero a) }

/-- R197: `trunc` rounds toward zero, and for a non-zero divisor the remainder is `a - b * trunc(a / b)`, is 0 or has the
sign of the dividend, and is smaller in magnitude than the divisor. -/
def Obligations.RemainderFollowsTheDividend : Prop :=
  (∀ q : Val, trunc q = towardZero q) ∧
  ∀ a b : Val, b ≠ 0 →
    rem a b = a - b * (trunc (a / b) : Val) ∧
    (rem a b = 0 ∨ (0 < a ∧ 0 < rem a b) ∨ (a < 0 ∧ rem a b < 0)) ∧ |rem a b| < |b|

/-! ### Bitwise -/

/-- R210: `ToInt32` truncates toward zero, reduces modulo 2^32 and reads bit 31 as the sign; its bits are the low 32 bits
of the truncated value, and its value lies in [-2^31, 2^31 - 1]. NOT, AND and OR apply their 32-bit operation to their
operands converted by it. -/
def Obligations.ToInt32IsTheWrappedTruncation : Prop :=
  (∀ v : Val, (toInt32 v).toInt = signed32 (towardZero v) ∧ ((toInt32 v).toNat : Int) = towardZero v % 2 ^ 32 ∧
    -2 ^ 31 ≤ (toInt32 v).toInt ∧ (toInt32 v).toInt ≤ 2 ^ 31 - 1) ∧
  ∀ (s : State) (base : List Val) (a b : Val),
    (s.stack = base ++ [a] →
      exec .not s = .next { s with stack := base ++ [((~~~toInt32 a).toInt : Val)] }) ∧
    (s.stack = base ++ [a, b] →
      exec .and s = .next { s with stack := base ++ [((toInt32 a &&& toInt32 b).toInt : Val)] } ∧
      exec .or s = .next { s with stack := base ++ [((toInt32 a ||| toInt32 b).toInt : Val)] })

/-- R211: NOT, AND and OR push an integer in [-2^31, 2^31 - 1]. -/
def Obligations.BitwiseResultsAreSigned32BitIntegers : Prop :=
  ∀ (s : State) (base : List Val) (a b : Val),
    (s.stack = base ++ [a] → ∃ k : Int, -2 ^ 31 ≤ k ∧ k ≤ 2 ^ 31 - 1 ∧
      exec .not s = .next { s with stack := base ++ [(k : Val)] }) ∧
    (s.stack = base ++ [a, b] →
      (∃ k : Int, -2 ^ 31 ≤ k ∧ k ≤ 2 ^ 31 - 1 ∧ exec .and s = .next { s with stack := base ++ [(k : Val)] }) ∧
      (∃ k : Int, -2 ^ 31 ≤ k ∧ k ≤ 2 ^ 31 - 1 ∧ exec .or s = .next { s with stack := base ++ [(k : Val)] }))

/-- R212 to R215: NOT gives `-ToInt32(a) - 1`; AND and OR give the 32-bit signed integer each of whose low 32 bits is the
and, or the or, of that bit of the truncated operands; with too few entries they raise StackUnderflow. -/
def Obligations.NotAndOrActOnTheLow32Bits : Prop :=
  encode .not = [.num 0x15] ∧ encode .and = [.num 0x16] ∧ encode .or = [.num 0x17] ∧
  ∀ s : State,
    (∀ base a, s.stack = base ++ [a] →
      exec .not s = .next { s with stack := base ++ [((-(signed32 (towardZero a)) - 1 : Int) : Val)] }) ∧
    (∀ base a b, s.stack = base ++ [a, b] →
      (∃ k : Int, exec .and s = .next { s with stack := base ++ [(k : Val)] } ∧ -2 ^ 31 ≤ k ∧ k ≤ 2 ^ 31 - 1 ∧
        ∀ i, i < 32 → (bit k i = 1 ↔ bit (towardZero a) i = 1 ∧ bit (towardZero b) i = 1)) ∧
      (∃ k : Int, exec .or s = .next { s with stack := base ++ [(k : Val)] } ∧ -2 ^ 31 ≤ k ∧ k ≤ 2 ^ 31 - 1 ∧
        ∀ i, i < 32 → (bit k i = 1 ↔ bit (towardZero a) i = 1 ∨ bit (towardZero b) i = 1))) ∧
    (s.sp = 0 → exec .not s = .next { s with fault := some .stackUnderflow }) ∧
    (s.sp < 2 → ∀ i, i = .and ∨ i = .or → ∃ t, exec i s = .next t ∧ t.fault = some .stackUnderflow)

/-! ### Faults and status -/

/-- R93, R29 and R238: with fewer entries than it pops, an instruction takes those there are and raises StackUnderflow,
whatever else its operands would have raised. Derived: that the popped entries are gone is decision D9. -/
def Obligations.TooFewEntriesUnderflowBeforeAnyOtherFault : Prop :=
  ∀ (i : Instr) (s : State), s.sp < i.pops →
    exec i s = .next { s with stack := [], fault := some .stackUnderflow }

/-- R232: which faults the execute stage of each instruction can raise. Derived: R232 is marked derived. -/
def Obligations.InstructionsRaiseOnlyTheirListedFaults : Prop :=
  ∀ (i : Instr) (s t : State), s.fault = none → exec i s = .next t →
    t.fault = none ∨ (t.fault = some .stackUnderflow ∧ s.sp < i.pops) ∨
    (∃ v, t.fault = some (.illegalAddress v) ∧ (i = .load ∨ i = .store)) ∨
    (∃ v, t.fault = some (.illegalJumpTarget v) ∧ i.isBranch = true) ∨
    (∃ v, t.fault = some (.divisionByZero v) ∧ (i = .div ∨ i = .mod))

/-- R236, R237 and R181: a cycle that raises a fault halts nothing, writes no memory, emits nothing and pushes nothing;
it may have popped entries and advanced `pc` by one slot. Derived: decisions D8 and D9. -/
def Obligations.FaultingCycleOnlyPops : Prop :=
  ∀ s t : State, step s = .next t → t.fault ≠ none →
    t.halted = false ∧ t.rom = s.rom ∧ t.mem = s.mem ∧ t.out = s.out ∧ (t.pc = s.pc ∨ t.pc = s.pc + 1) ∧
    ∃ popped, s.stack = t.stack ++ popped

/-- R34 and R231: the STATUS view. Derived: decisions D7 (the codes) and D18 (the view). -/
def Obligations.StatusReportsHaltAndFault : Prop :=
  ∀ s : State,
    (s.fault = none → s.halted = false → s.status = .running ∧ s.cause = 0) ∧
    (s.fault = none → s.halted = true → s.status = .halted ∧ s.cause = 0) ∧
    (∀ f, s.fault = some f → s.status = .faulted ∧ (s.cause = 1 ↔ ∃ n, f = .illegalValue n) ∧
      (s.cause = 2 ↔ ∃ v, f = .illegalOpcode v) ∧ (s.cause = 3 ↔ f = .stackUnderflow) ∧
      (s.cause = 4 ↔ ∃ v, f = .illegalAddress v) ∧ (s.cause = 5 ↔ ∃ v, f = .illegalJumpTarget v) ∧
      (s.cause = 6 ↔ ∃ n, f = .fetchOutOfRange n) ∧ (s.cause = 7 ↔ ∃ v, f = .divisionByZero v))

/-- R83: between cycles `pc` is inside ROM, so only the literal fetch of a PUSH in the last slot raises FetchOutOfRange.
Derived: R83 is marked derived, the fault kind is decision D6, and its diagnostic value is R231's (log 8). -/
def Obligations.OnlyALastPushFetchesOutOfRange : Prop :=
  ∀ (s t : State) (n : Nat), s.Inv → step s = .next t → t.fault = some (.fetchOutOfRange n) →
    s.rom[s.pc]? = some (.num 0x01) ∧ s.pc + 1 = s.rom.length ∧ n = s.rom.length

/-! ### The whole machine -/

/-- R85 and R86: an instruction that completes finds the entries it pops and leaves the depth its row says. Derived: the
pops and pushes columns only. -/
def Obligations.CompletedInstructionsObeyTheirArity : Prop :=
  ∀ (i : Instr) (s t : State), exec i s = .next t → t.fault = none →
    i.pops ≤ s.sp ∧ t.sp + i.pops = s.sp + i.pushes

/-- R36 and R51: who writes what. Every instruction leaves ROM alone; only HALT writes `halted`, only OUT the sink, only
PUSH and the branches `pc`; NOP and HALT leave the stack; only STORE changes a cell, and only the one its address operand
names. Derived: R36 is marked derived. -/
def Obligations.OnlyTheListedStateIsWritten : Prop :=
  ∀ (i : Instr) (s t : State), exec i s = .next t →
    t.rom = s.rom ∧ (i ≠ .halt → t.halted = s.halted) ∧ (i ≠ .out → t.out = s.out) ∧
    ((∀ imm, i ≠ .push imm) → i.isBranch = false → t.pc = s.pc) ∧
    (i = .nop ∨ i = .halt → t.stack = s.stack) ∧
    (i ≠ .store → ∀ b, Memory.read t.mem b = Memory.read s.mem b) ∧
    (i = .store → s.sp < 2 → ∀ b, Memory.read t.mem b = Memory.read s.mem b) ∧
    (i = .store → Memory.wf s.mem → ∀ base w v, s.stack = base ++ [w, v] →
      ∀ b, address? w ≠ some b → Memory.read t.mem b = Memory.read s.mem b)

/-- R64: "Fetch always returns the slot as it was supplied at construction". No step changes ROM, so in every state a run
reaches it is the ROM the run was constructed from, and what Fetch returns there is that ROM's slot. -/
def Obligations.RomStaysAsSupplied : Prop :=
  (∀ s t : State, step s = .next t → t.rom = s.rom) ∧
  (∀ (rom : List Slot) (s : State), Reachable rom s → s.rom = rom) ∧
  ∀ (rom : List Slot) (s u : State) (v : Val), Reachable rom s → fetch s = .done v u → rom[s.pc]? = some (.num v)

/-- R23, R31 and R50, from every state: a step keeps memory canonical, `pc` in [0, LEN] and equal to LEN only in a halted
or faulted state, and never sets `halted` and `fault` both. Derived: R23 is marked derived, and the form of memory is
log 5. -/
def Obligations.EveryStepKeepsTheInvariant : Prop :=
  ∀ s t : State, s.Inv → step s = .next t → t.Inv

/-- The invariant holds right after reset, of every ROM (R270). -/
def Obligations.ResetMeetsTheInvariant : Prop :=
  State.reset.Inv ∧ ∀ rom : List Slot, (State.resetWith rom).Inv
end

