-- ==== Sys2Proof/Laws/Numeric.lean ====
section
/-! SUPPORT. The numeric functions in Mathlib's terms: truncation, the integer test, the address and target checks,
and the 32-bit coercion. -/

namespace Sys2Proof.Machine

@[simp] theorem trunc_intCast (n : Int) : trunc (n : Val) = n := by
  simp [trunc]

@[simp] theorem trunc_natCast (n : Nat) : trunc (n : Val) = n := by
  simpa using trunc_intCast (n : Int)

/-- Toward zero from above. -/
theorem trunc_of_nonneg {v : Val} (h : 0 ≤ v) : trunc v = ⌊v⌋ := by
  rw [trunc, Rat.floor_def', Int.tdiv_eq_ediv_of_nonneg (Rat.num_nonneg.mpr h)]

@[simp] theorem trunc_neg (v : Val) : trunc (-v) = -trunc v := by
  simp [trunc]

/-- Toward zero from below. -/
theorem trunc_of_nonpos {v : Val} (h : v ≤ 0) : trunc v = ⌈v⌉ := by
  have := trunc_of_nonneg (v := -v) (by linarith)
  rw [trunc_neg, Int.floor_neg] at this
  omega

theorem isInt_iff {v : Val} : isInt v = true ↔ ∃ n : Int, v = n := by
  constructor
  · intro h
    exact ⟨trunc v, by simpa [isInt] using h⟩
  · rintro ⟨n, rfl⟩
    simp [isInt]

@[simp] theorem isInt_natCast (n : Nat) : isInt (n : Val) = true :=
  isInt_iff.mpr ⟨n, by simp⟩

/-- A non-negative integer value is a natural number, the one its numerator gives. -/
theorem nat_of_isInt {v : Val} (h : isInt v = true) (h0 : 0 ≤ v) : v = (v.num.toNat : Val) := by
  obtain ⟨n, rfl⟩ := isInt_iff.mp h
  have hn : 0 ≤ n := by exact_mod_cast h0
  have e : ((n.toNat : Int) : Val) = (n : Val) := congrArg Int.cast (Int.toNat_of_nonneg hn)
  rw [Int.cast_natCast] at e
  rw [Rat.num_intCast, e]

/-- Everything the address translator can answer. -/
theorem address?_eq_some {v : Val} {a : Nat} : address? v = some a ↔ v = (a : Val) := by
  unfold address?
  constructor
  · split
    · simp
    · split
      · rename_i h0 h
        intro e
        simp only [Option.some.injEq] at e
        rw [← e]
        exact nat_of_isInt h (not_lt.mp h0)
      · simp
  · rintro rfl
    simp

@[simp] theorem address?_natCast (a : Nat) : address? (a : Val) = some a :=
  address?_eq_some.mpr rfl

theorem address?_eq_none {v : Val} : address? v = none ↔ ∀ a : Nat, v ≠ (a : Val) := by
  constructor
  · rintro h a rfl
    simp at h
  · intro h
    cases e : address? v with
    | none => rfl
    | some a => exact absurd (address?_eq_some.mp e) (h a)

theorem address?_of_neg {v : Val} (h : v < 0) : address? v = none := by
  simp [address?, h]

/-- Everything the target check can answer. -/
theorem jumpTarget?_eq_some {v : Val} {len n : Nat} : jumpTarget? v len = some n ↔ v = (n : Val) ∧ n < len := by
  unfold jumpTarget?
  constructor
  · split
    · rename_i h
      intro e
      simp only [Option.some.injEq] at e
      have hv := nat_of_isInt h.1 h.2.1
      rw [e] at hv
      refine ⟨hv, ?_⟩
      have := h.2.2
      rw [hv] at this
      exact_mod_cast this
    · simp
  · rintro ⟨rfl, h⟩
    simp [h]

theorem jumpTarget?_eq_none {v : Val} {len : Nat} :
    jumpTarget? v len = none ↔ ∀ n : Nat, v = (n : Val) → len ≤ n := by
  constructor
  · intro h n hv
    by_contra hn
    rw [jumpTarget?_eq_some.mpr ⟨hv, not_le.mp hn⟩] at h
    cases h
  · intro h
    cases e : jumpTarget? v len with
    | none => rfl
    | some n =>
      obtain ⟨hv, hn⟩ := jumpTarget?_eq_some.mp e
      exact absurd (h n hv) (not_le.mpr hn)

/-- The unsigned reading of the coercion is `trunc(v)` modulo 2^32 (R210). -/
theorem toInt32_toNat (v : Val) : ((toInt32 v).toNat : Int) = trunc v % 2 ^ 32 := by
  have h : 0 ≤ trunc v % 2 ^ 32 := Int.emod_nonneg _ (by norm_num)
  rw [toInt32, BitVec.toNat_ofInt]
  exact Int.toNat_of_nonneg h

theorem ofInt32_eq (w : BitVec Config.bitWidth) : ofInt32 w = ((w.toInt : Int) : Val) := rfl

end Sys2Proof.Machine
end

