-- ==== Sys2Proof/Laws/Decode.lean ====
section
/-! SUPPORT. The decoder on each kind of slot. -/

namespace Sys2Proof

open Machine

@[simp] theorem opcodeTable_length : opcodeTable.length = Config.numOpcodes := rfl

/-- `Decode(v)` on a natural number is that row of the table, if there is one. -/
theorem decodeRow_natCast (n : Nat) : decodeRow (n : Val) = opcodeTable[n]? := by
  unfold decodeRow
  split
  · simp
  · rename_i h
    have hn : 23 < n := by
      by_contra hn
      exact h ⟨isInt_natCast n, by positivity, by exact_mod_cast Nat.le_of_not_lt hn⟩
    exact (List.getElem?_eq_none (by rw [opcodeTable_length, Config.numOpcodes]; omega)).symm

@[simp] theorem decodeOpcode_natCast (n : Nat) : decodeOpcode (n : Val) = (opcodeTable[n]?).map OpcodeRow.kind := by
  rw [decodeOpcode, decodeRow_natCast]

/-- `Decode(v)` answers only on the integers 0 to 0x17. -/
theorem decodeOpcode_some {v : Val} {k : Kind} (h : decodeOpcode v = some k) :
    ∃ n : Nat, n < Config.numOpcodes ∧ v = (n : Val) ∧ (opcodeTable[n]?).map OpcodeRow.kind = some k := by
  have hv : ∃ n : Nat, v = (n : Val) := by
    unfold decodeOpcode decodeRow at h
    split at h
    · rename_i c
      exact ⟨_, nat_of_isInt c.1 c.2.1⟩
    · cases h
  obtain ⟨n, rfl⟩ := hv
  rw [decodeOpcode_natCast] at h
  refine ⟨n, ?_, rfl, h⟩
  by_contra hn
  rw [List.getElem?_eq_none (by rw [opcodeTable_length]; omega)] at h
  cases h

theorem decode_bad (rest : List Slot) : decode (.bad :: rest) = .badOpcode := rfl

theorem decode_illegal {v : Val} (h : decodeOpcode v = none) (rest : List Slot) :
    decode (.num v :: rest) = .illegalOpcode v := by
  simp [decode, h]

theorem decode_s1 {v : Val} {i : Instr} (h : decodeOpcode v = some (.s1 i)) (rest : List Slot) :
    decode (.num v :: rest) = .instr i rest := by
  simp [decode, h]

theorem decode_s2 {v : Val} (h : decodeOpcode v = some .s2Push) (rest : List Slot) :
    decode (.num v :: rest) = decodeLiteral rest := by
  simp [decode, h]

end Sys2Proof
end

