-- ==== Sys2Proof/Laws/State.lean ====
section
/-! SUPPORT. What each named update of the state does to each field, so that no proof unfolds a record update. -/

namespace Sys2Proof.Machine

variable (s : State)

/-! `State.setPc` -/

@[simp] theorem State.setPc_rom (n : Nat) : (s.setPc n).rom = s.rom := rfl
@[simp] theorem State.setPc_pc (n : Nat) : (s.setPc n).pc = n := rfl
@[simp] theorem State.setPc_stack (n : Nat) : (s.setPc n).stack = s.stack := rfl
@[simp] theorem State.setPc_mem (n : Nat) : (s.setPc n).mem = s.mem := rfl
@[simp] theorem State.setPc_halted (n : Nat) : (s.setPc n).halted = s.halted := rfl
@[simp] theorem State.setPc_fault (n : Nat) : (s.setPc n).fault = s.fault := rfl
@[simp] theorem State.setPc_out (n : Nat) : (s.setPc n).out = s.out := rfl

/-! `State.push` -/

@[simp] theorem State.push_rom (v : Val) : (s.push v).rom = s.rom := rfl
@[simp] theorem State.push_pc (v : Val) : (s.push v).pc = s.pc := rfl
@[simp] theorem State.push_stack (v : Val) : (s.push v).stack = s.stack ++ [v] := rfl
@[simp] theorem State.push_mem (v : Val) : (s.push v).mem = s.mem := rfl
@[simp] theorem State.push_halted (v : Val) : (s.push v).halted = s.halted := rfl
@[simp] theorem State.push_fault (v : Val) : (s.push v).fault = s.fault := rfl
@[simp] theorem State.push_out (v : Val) : (s.push v).out = s.out := rfl

/-! `State.dropTop` -/

@[simp] theorem State.dropTop_rom : (s.dropTop).rom = s.rom := rfl
@[simp] theorem State.dropTop_pc : (s.dropTop).pc = s.pc := rfl
@[simp] theorem State.dropTop_stack : (s.dropTop).stack = s.stack.dropLast := rfl
@[simp] theorem State.dropTop_mem : (s.dropTop).mem = s.mem := rfl
@[simp] theorem State.dropTop_halted : (s.dropTop).halted = s.halted := rfl
@[simp] theorem State.dropTop_fault : (s.dropTop).fault = s.fault := rfl
@[simp] theorem State.dropTop_out : (s.dropTop).out = s.out := rfl

/-! `State.setHalted` -/

@[simp] theorem State.setHalted_rom : (s.setHalted).rom = s.rom := rfl
@[simp] theorem State.setHalted_pc : (s.setHalted).pc = s.pc := rfl
@[simp] theorem State.setHalted_stack : (s.setHalted).stack = s.stack := rfl
@[simp] theorem State.setHalted_mem : (s.setHalted).mem = s.mem := rfl
@[simp] theorem State.setHalted_halted : (s.setHalted).halted = true := rfl
@[simp] theorem State.setHalted_fault : (s.setHalted).fault = s.fault := rfl
@[simp] theorem State.setHalted_out : (s.setHalted).out = s.out := rfl

/-! `State.emit` -/

@[simp] theorem State.emit_rom (v : Val) : (s.emit v).rom = s.rom := rfl
@[simp] theorem State.emit_pc (v : Val) : (s.emit v).pc = s.pc := rfl
@[simp] theorem State.emit_stack (v : Val) : (s.emit v).stack = s.stack := rfl
@[simp] theorem State.emit_mem (v : Val) : (s.emit v).mem = s.mem := rfl
@[simp] theorem State.emit_halted (v : Val) : (s.emit v).halted = s.halted := rfl
@[simp] theorem State.emit_fault (v : Val) : (s.emit v).fault = s.fault := rfl
@[simp] theorem State.emit_out (v : Val) : (s.emit v).out = s.out ++ [v] := rfl

/-! `State.raise` -/

@[simp] theorem State.raise_rom (f : FaultStatus) : (s.raise f).rom = s.rom := rfl
@[simp] theorem State.raise_pc (f : FaultStatus) : (s.raise f).pc = s.pc := rfl
@[simp] theorem State.raise_stack (f : FaultStatus) : (s.raise f).stack = s.stack := rfl
@[simp] theorem State.raise_mem (f : FaultStatus) : (s.raise f).mem = s.mem := rfl
@[simp] theorem State.raise_halted (f : FaultStatus) : (s.raise f).halted = s.halted := rfl
@[simp] theorem State.raise_fault (f : FaultStatus) : (s.raise f).fault = some f := rfl
@[simp] theorem State.raise_out (f : FaultStatus) : (s.raise f).out = s.out := rfl

/-! `State.writeMem` -/

@[simp] theorem State.writeMem_rom (a : Nat) (v : Val) : (s.writeMem a v).rom = s.rom := rfl
@[simp] theorem State.writeMem_pc (a : Nat) (v : Val) : (s.writeMem a v).pc = s.pc := rfl
@[simp] theorem State.writeMem_stack (a : Nat) (v : Val) : (s.writeMem a v).stack = s.stack := rfl
@[simp] theorem State.writeMem_mem (a : Nat) (v : Val) : (s.writeMem a v).mem = Memory.write s.mem a v := rfl
@[simp] theorem State.writeMem_halted (a : Nat) (v : Val) : (s.writeMem a v).halted = s.halted := rfl
@[simp] theorem State.writeMem_fault (a : Nat) (v : Val) : (s.writeMem a v).fault = s.fault := rfl
@[simp] theorem State.writeMem_out (a : Nat) (v : Val) : (s.writeMem a v).out = s.out := rfl

/-! `pushAll` -/

@[simp] theorem pushAll_rom (rs : List Val) : (pushAll rs s).rom = s.rom := rfl
@[simp] theorem pushAll_pc (rs : List Val) : (pushAll rs s).pc = s.pc := rfl
@[simp] theorem pushAll_stack (rs : List Val) : (pushAll rs s).stack = s.stack ++ rs := rfl
@[simp] theorem pushAll_mem (rs : List Val) : (pushAll rs s).mem = s.mem := rfl
@[simp] theorem pushAll_halted (rs : List Val) : (pushAll rs s).halted = s.halted := rfl
@[simp] theorem pushAll_fault (rs : List Val) : (pushAll rs s).fault = s.fault := rfl
@[simp] theorem pushAll_out (rs : List Val) : (pushAll rs s).out = s.out := rfl

/-! `State.resetWith` -/

@[simp] theorem State.resetWith_rom (rom : List Slot) : (State.resetWith rom).rom = rom := rfl
@[simp] theorem State.resetWith_pc (rom : List Slot) : (State.resetWith rom).pc = 0 := rfl
@[simp] theorem State.resetWith_stack (rom : List Slot) : (State.resetWith rom).stack = [] := rfl
@[simp] theorem State.resetWith_mem (rom : List Slot) : (State.resetWith rom).mem = [] := rfl
@[simp] theorem State.resetWith_halted (rom : List Slot) : (State.resetWith rom).halted = rom.isEmpty := rfl
@[simp] theorem State.resetWith_fault (rom : List Slot) : (State.resetWith rom).fault = none := rfl
@[simp] theorem State.resetWith_out (rom : List Slot) : (State.resetWith rom).out = [] := rfl

/-! `SP` and `LEN` -/

theorem State.sp_eq : s.sp = s.stack.length := rfl

theorem State.len_eq : s.len = s.rom.length := rfl

end Sys2Proof.Machine
end

