-- ==== Sys2Proof/Laws/Ops.lean ====
section
/-! SUPPORT. One lemma per shared operation that says everything it can answer: micro-operations, the stack, fetch,
operate, branch and the end check. -/

namespace Sys2Proof.Machine

/-! ### Micro-operations -/

@[simp] theorem Micro.andThen_done {α β : Type} (a : α) (s : State) (k : α → State → Micro β) :
    (Micro.done a s).andThen k = k a s := rfl

@[simp] theorem Micro.andThen_raised {α β : Type} (s : State) (k : α → State → Micro β) :
    (Micro.raised s).andThen k = .raised s := rfl

@[simp] theorem raise_andThen {α β : Type} (f : FaultStatus) (s : State) (k : α → State → Micro β) :
    (raise f s : Micro α).andThen k = raise f s := rfl

@[simp] theorem Micro.outcome_done (u : Unit) (s : State) : (Micro.done u s).outcome = .next s := rfl

@[simp] theorem Micro.outcome_raised (s : State) : (Micro.raised s).outcome = .next s := rfl

@[simp] theorem outcome_raise (f : FaultStatus) (s : State) : (raise f s).outcome = .next (s.raise f) := rfl

/-- Peeling two micro-operations apart. -/
theorem Micro.andThen_eq_done {α β : Type} {m : Micro α} {k : α → State → Micro β} {b : β} {t : State} :
    m.andThen k = .done b t ↔ ∃ a s, m = .done a s ∧ k a s = .done b t := by
  cases m <;> simp

/-- An instruction always ends in a next state: a fault is one too. -/
theorem Micro.outcome_next (m : Micro Unit) : ∃ t, m.outcome = .next t := by
  cases m <;> simp

@[simp] theorem results_eq (rs : List Val) (s : State) : results rs s = .done rs s := rfl

@[simp] theorem pushResults_eq (rs : List Val) (s : State) : pushResults rs s = .done () (pushAll rs s) := rfl

/-! ### The operand stack -/

theorem pop_empty {s : State} (h : s.stack = []) : pop s = raise .stackUnderflow s := by
  simp [pop, h]

theorem pop_concat {s : State} {base : List Val} {v : Val} (h : s.stack = base ++ [v]) :
    pop s = .done v { s with stack := base } := by
  simp [pop, h, State.dropTop]

/-- Pop either raises StackUnderflow on an empty stack or takes the top. -/
theorem pop_cases (s : State) :
    (s.stack = [] ∧ pop s = raise .stackUnderflow s) ∨
      ∃ base v, s.stack = base ++ [v] ∧ pop s = .done v { s with stack := base } := by
  rcases List.eq_nil_or_concat s.stack with h | ⟨base, v, h⟩
  · exact .inl ⟨h, pop_empty h⟩
  · rw [List.concat_eq_append] at h
    exact .inr ⟨base, v, h, pop_concat h⟩

/-- Pop after Push gives back the value and the state. -/
@[simp] theorem pop_push (v : Val) (s : State) : pop (s.push v) = .done v s :=
  pop_concat rfl

/-- A stack of at least one entry has a top. -/
theorem top_one {s : State} (h : 1 ≤ s.sp) : ∃ base a, s.stack = base ++ [a] := by
  rcases List.eq_nil_or_concat s.stack with h0 | ⟨base, a, h1⟩
  · rw [State.sp_eq, h0] at h
    simp at h
  · exact ⟨base, a, by rw [h1, List.concat_eq_append]⟩

/-- A stack of at least two entries has a top and a second. -/
theorem top_two {s : State} (h : 2 ≤ s.sp) : ∃ base a b, s.stack = base ++ [a, b] := by
  obtain ⟨base, b, h1⟩ := top_one (Nat.le_of_succ_le h)
  have : 1 ≤ ({ s with stack := base } : State).sp := by
    rw [State.sp_eq, h1] at h
    simp only [State.sp_eq]
    simpa using h
  obtain ⟨base', a, h2⟩ := top_one this
  simp only at h2
  exact ⟨base', a, b, by simp [h1, h2]⟩

/-- A stack of at least three entries. -/
theorem top_three {s : State} (h : 3 ≤ s.sp) : ∃ base a b c, s.stack = base ++ [a, b, c] := by
  obtain ⟨base, c, h1⟩ := top_one (Nat.le_trans (by decide) h)
  have : 2 ≤ ({ s with stack := base } : State).sp := by
    rw [State.sp_eq, h1] at h
    simp only [State.sp_eq]
    simpa using h
  obtain ⟨base', a, b, h2⟩ := top_two this
  simp only at h2
  exact ⟨base', a, b, c, by simp [h1, h2]⟩

/-! ### operate -/

@[simp] theorem operate0_eq (f : State → Micro (List Val)) (s : State) : operate0 f s = (f s).andThen pushResults := rfl

theorem operate1_concat {s : State} {base : List Val} {a : Val} (f : Val → State → Micro (List Val))
    (h : s.stack = base ++ [a]) : operate1 f s = (f a { s with stack := base }).andThen pushResults := by
  rw [operate1, pop_concat h, Micro.andThen_done]

theorem operate1_empty {s : State} (f : Val → State → Micro (List Val)) (h : s.stack = []) :
    operate1 f s = raise .stackUnderflow s := by
  rw [operate1, pop_empty h, raise_andThen]

theorem operate2_concat {s : State} {base : List Val} {a b : Val} (f : Val → Val → State → Micro (List Val))
    (h : s.stack = base ++ [a, b]) : operate2 f s = (f a b { s with stack := base }).andThen pushResults := by
  rw [operate2, pop_concat (base := base ++ [a]) (v := b) (by simp [h]), Micro.andThen_done, pop_concat rfl, Micro.andThen_done]

/-- Two pops from fewer than two entries take what is there and raise StackUnderflow. -/
theorem pop_pop_short {β : Type} {s : State} (k : Val → Val → State → Micro β) (h : s.sp < 2) :
    ((pop s).andThen fun x s => (pop s).andThen fun y s => k x y s) =
      raise .stackUnderflow { s with stack := [] } := by
  rcases pop_cases s with ⟨h0, e⟩ | ⟨base, v, h1, e⟩
  · rw [e, raise_andThen, ← h0]
  · have hb : base = [] := by
      rw [State.sp_eq, h1] at h
      exact List.length_eq_zero_iff.mp (by simpa using h)
    subst hb
    rw [e, Micro.andThen_done, pop_empty rfl, raise_andThen]

theorem operate2_short {s : State} (f : Val → Val → State → Micro (List Val)) (h : s.sp < 2) :
    operate2 f s = raise .stackUnderflow { s with stack := [] } :=
  pop_pop_short (fun b a s => (f a b s).andThen pushResults) h

/-- Everything operate with one pop can answer: StackUnderflow, the function's fault, or the results pushed. -/
theorem operate1_cases {f : Val → State → Micro (List Val)} {s t : State} (h : (operate1 f s).outcome = .next t) :
    (s.stack = [] ∧ t = s.raise .stackUnderflow) ∨
      ∃ base a, s.stack = base ++ [a] ∧
        (f a { s with stack := base } = .raised t ∨
          ∃ rs u, f a { s with stack := base } = .done rs u ∧ t = pushAll rs u) := by
  rcases List.eq_nil_or_concat s.stack with h0 | ⟨base, a, h1⟩
  · rw [operate1_empty f h0, outcome_raise, Host.Outcome.next.injEq] at h
    exact .inl ⟨h0, h.symm⟩
  · rw [List.concat_eq_append] at h1
    rw [operate1_concat f h1] at h
    refine .inr ⟨base, a, h1, ?_⟩
    cases e : f a { s with stack := base } with
    | raised u => exact .inl (by simpa [e] using h)
    | done rs u => exact .inr ⟨rs, u, rfl, by simpa [e] using h.symm⟩

/-- Everything operate with two pops can answer. -/
theorem operate2_cases {f : Val → Val → State → Micro (List Val)} {s t : State}
    (h : (operate2 f s).outcome = .next t) :
    (s.sp < 2 ∧ t = State.raise .stackUnderflow { s with stack := [] }) ∨
      ∃ base a b, s.stack = base ++ [a, b] ∧
        (f a b { s with stack := base } = .raised t ∨
          ∃ rs u, f a b { s with stack := base } = .done rs u ∧ t = pushAll rs u) := by
  rcases Nat.lt_or_ge s.sp 2 with hs | hs
  · rw [operate2_short f hs, outcome_raise, Host.Outcome.next.injEq] at h
    exact .inl ⟨hs, h.symm⟩
  · obtain ⟨base, a, b, h2⟩ := top_two hs
    rw [operate2_concat f h2] at h
    refine .inr ⟨base, a, b, h2, ?_⟩
    cases e : f a b { s with stack := base } with
    | raised u => exact .inl (by simpa [e] using h)
    | done rs u => exact .inr ⟨rs, u, rfl, by simpa [e] using h.symm⟩

/-! ### branch -/

theorem branchTo_false (off : Val) (s : State) : branchTo false off s = .done () s := rfl

theorem branchTo_target {off : Val} {s : State} {n : Nat} (h : (s.pc : Val) + off = (n : Val)) (hn : n < s.len) :
    branchTo true off s = .done () (s.setPc n) := by
  simp [branchTo, jumpTarget?_eq_some.mpr ⟨h, hn⟩]

theorem branchTo_illegal {off : Val} {s : State} (h : ∀ n : Nat, (s.pc : Val) + off = (n : Val) → s.len ≤ n) :
    branchTo true off s = raise (.illegalJumpTarget ((s.pc : Val) + off)) s := by
  simp [branchTo, jumpTarget?_eq_none.mpr h]

/-- Everything the end of a branch can answer. -/
theorem branchTo_cases (taken : Bool) (off : Val) (s : State) :
    (taken = false ∧ branchTo taken off s = .done () s) ∨
      (taken = true ∧ ∃ n : Nat, (s.pc : Val) + off = (n : Val) ∧ n < s.len ∧
        branchTo taken off s = .done () (s.setPc n)) ∨
      (taken = true ∧ branchTo taken off s = raise (.illegalJumpTarget ((s.pc : Val) + off)) s) := by
  cases taken with
  | false => exact .inl ⟨rfl, rfl⟩
  | true =>
    cases e : jumpTarget? ((s.pc : Val) + off) s.len with
    | none => exact .inr (.inr ⟨rfl, by simp [branchTo, e]⟩)
    | some n =>
      obtain ⟨hv, hn⟩ := jumpTarget?_eq_some.mp e
      exact .inr (.inl ⟨rfl, n, hv, hn, branchTo_target hv hn⟩)

theorem branch0_concat {s : State} {base : List Val} {off : Val} (taken : Bool) (h : s.stack = base ++ [off]) :
    branch0 taken s = branchTo taken off { s with stack := base } := by
  rw [branch0, pop_concat h, Micro.andThen_done]

theorem branch1_concat {s : State} {base : List Val} {a off : Val} (cond : Val → Bool)
    (h : s.stack = base ++ [a, off]) : branch1 cond s = branchTo (cond a) off { s with stack := base } := by
  rw [branch1, pop_concat (base := base ++ [a]) (v := off) (by simp [h]), Micro.andThen_done, pop_concat rfl, Micro.andThen_done]

theorem branch2_concat {s : State} {base : List Val} {a b off : Val} (cond : Val → Val → Bool)
    (h : s.stack = base ++ [a, b, off]) : branch2 cond s = branchTo (cond a b) off { s with stack := base } := by
  rw [branch2, pop_concat (base := base ++ [a, b]) (v := off) (by simp [h]), Micro.andThen_done,
    pop_concat (base := base ++ [a]) (v := b) (by simp), Micro.andThen_done, pop_concat rfl, Micro.andThen_done]

theorem branch0_short {s : State} (taken : Bool) (h : s.sp < 1) :
    branch0 taken s = raise .stackUnderflow { s with stack := [] } := by
  have h0 : s.stack = [] := List.length_eq_zero_iff.mp (by rw [State.sp_eq] at h; omega)
  rw [branch0, pop_empty h0, raise_andThen, ← h0]

theorem branch1_short {s : State} (cond : Val → Bool) (h : s.sp < 2) :
    branch1 cond s = raise .stackUnderflow { s with stack := [] } :=
  pop_pop_short (fun off a s => branchTo (cond a) off s) h

theorem branch2_short {s : State} (cond : Val → Val → Bool) (h : s.sp < 3) :
    branch2 cond s = raise .stackUnderflow { s with stack := [] } := by
  rcases pop_cases s with ⟨h0, e⟩ | ⟨base, off, h1, e⟩
  · rw [branch2, e, raise_andThen, ← h0]
  · have hs : ({ s with stack := base } : State).sp < 2 := by
      have : s.sp = base.length + 1 := by simp [State.sp_eq, h1]
      simp only [State.sp_eq]
      omega
    rw [branch2, e, Micro.andThen_done]
    exact pop_pop_short (fun b a s => branchTo (cond a b) off s) hs

/-- What a branch leaves once its operands are popped: it falls through, jumps inside ROM, or raises. -/
def BranchEnd (taken : Bool) (off : Val) (s t : State) : Prop :=
  (taken = false ∧ t = s) ∨
    (taken = true ∧ ∃ n : Nat, (s.pc : Val) + off = (n : Val) ∧ n < s.len ∧ t = s.setPc n) ∨
    (taken = true ∧ (∀ n : Nat, (s.pc : Val) + off = (n : Val) → s.len ≤ n) ∧
      t = s.raise (.illegalJumpTarget ((s.pc : Val) + off)))

theorem branchTo_end {taken : Bool} {off : Val} {s t : State} (h : (branchTo taken off s).outcome = .next t) :
    BranchEnd taken off s t := by
  cases taken with
  | false =>
    rw [branchTo_false, Micro.outcome_done, Host.Outcome.next.injEq] at h
    exact .inl ⟨rfl, h.symm⟩
  | true =>
    cases e : jumpTarget? ((s.pc : Val) + off) s.len with
    | none =>
      have hn := jumpTarget?_eq_none.mp e
      rw [branchTo_illegal hn, outcome_raise, Host.Outcome.next.injEq] at h
      exact .inr (.inr ⟨rfl, hn, h.symm⟩)
    | some n =>
      obtain ⟨hv, hn⟩ := jumpTarget?_eq_some.mp e
      rw [branchTo_target hv hn, Micro.outcome_done, Host.Outcome.next.injEq] at h
      exact .inr (.inl ⟨rfl, n, hv, hn, h.symm⟩)

/-- Everything an unconditional branch can answer. -/
theorem branch0_cases {taken : Bool} {s t : State} (h : (branch0 taken s).outcome = .next t) :
    (s.sp < 1 ∧ t = State.raise .stackUnderflow { s with stack := [] }) ∨
      ∃ base off, s.stack = base ++ [off] ∧ BranchEnd taken off { s with stack := base } t := by
  rcases Nat.lt_or_ge s.sp 1 with hs | hs
  · rw [branch0_short taken hs, outcome_raise, Host.Outcome.next.injEq] at h
    exact .inl ⟨hs, h.symm⟩
  · obtain ⟨base, off, h1⟩ := top_one hs
    rw [branch0_concat taken h1] at h
    exact .inr ⟨base, off, h1, branchTo_end h⟩

/-- Everything a branch with one condition operand can answer. -/
theorem branch1_cases {cond : Val → Bool} {s t : State} (h : (branch1 cond s).outcome = .next t) :
    (s.sp < 2 ∧ t = State.raise .stackUnderflow { s with stack := [] }) ∨
      ∃ base a off, s.stack = base ++ [a, off] ∧ BranchEnd (cond a) off { s with stack := base } t := by
  rcases Nat.lt_or_ge s.sp 2 with hs | hs
  · rw [branch1_short cond hs, outcome_raise, Host.Outcome.next.injEq] at h
    exact .inl ⟨hs, h.symm⟩
  · obtain ⟨base, a, off, h1⟩ := top_two hs
    rw [branch1_concat cond h1] at h
    exact .inr ⟨base, a, off, h1, branchTo_end h⟩

/-- Everything a branch with two condition operands can answer. -/
theorem branch2_cases {cond : Val → Val → Bool} {s t : State} (h : (branch2 cond s).outcome = .next t) :
    (s.sp < 3 ∧ t = State.raise .stackUnderflow { s with stack := [] }) ∨
      ∃ base a b off, s.stack = base ++ [a, b, off] ∧ BranchEnd (cond a b) off { s with stack := base } t := by
  rcases Nat.lt_or_ge s.sp 3 with hs | hs
  · rw [branch2_short cond hs, outcome_raise, Host.Outcome.next.injEq] at h
    exact .inl ⟨hs, h.symm⟩
  · obtain ⟨base, a, b, off, h1⟩ := top_three hs
    rw [branch2_concat cond h1] at h
    exact .inr ⟨base, a, b, off, h1, branchTo_end h⟩

/-! ### Fetch -/

theorem readSlot_num {s : State} {v : Val} (h : s.rom[s.pc]? = some (.num v)) : readSlot s = .done v s := by
  simp [readSlot, h]

theorem readSlot_bad {s : State} (h : s.rom[s.pc]? = some .bad) : readSlot s = raise (.illegalValue s.pc) s := by
  simp [readSlot, h]

theorem readSlot_end {s : State} (h : s.rom[s.pc]? = none) : readSlot s = raise (.fetchOutOfRange s.pc) s := by
  simp [readSlot, h]

/-! ### The end check -/

theorem endCheck_halts {s : State} (hf : s.fault = none) (hp : s.len ≤ s.pc) : endCheck s = s.setHalted := by
  unfold endCheck
  split
  · rfl
  · rename_i h
    have hh : s.halted = true := by
      by_contra hh
      exact h ⟨hf, by simpa using hh, hp⟩
    cases s
    simp_all [State.setHalted]

theorem endCheck_inside {s : State} (hp : s.pc < s.len) : endCheck s = s := by
  simp [endCheck, Nat.not_le.mpr hp]

theorem endCheck_fault {s : State} {f : FaultStatus} (hf : s.fault = some f) : endCheck s = s := by
  simp [endCheck, hf]

theorem endCheck_halted {s : State} (hh : s.halted = true) : endCheck s = s := by
  simp [endCheck, hh]

@[simp] theorem endCheck_rom (s : State) : (endCheck s).rom = s.rom := by unfold endCheck; split <;> rfl

@[simp] theorem endCheck_pc (s : State) : (endCheck s).pc = s.pc := by unfold endCheck; split <;> rfl

@[simp] theorem endCheck_stack (s : State) : (endCheck s).stack = s.stack := by unfold endCheck; split <;> rfl

@[simp] theorem endCheck_mem (s : State) : (endCheck s).mem = s.mem := by unfold endCheck; split <;> rfl

@[simp] theorem endCheck_fault_eq (s : State) : (endCheck s).fault = s.fault := by unfold endCheck; split <;> rfl

@[simp] theorem endCheck_out (s : State) : (endCheck s).out = s.out := by unfold endCheck; split <;> rfl

@[simp] theorem endCycle_next (s : State) : endCycle (.next s) = .next (endCheck s) := rfl

end Sys2Proof.Machine
end

