-- ==== Sys2Proof/Laws/Exec.lean ====
section
/-! SUPPORT. The inversion of `exec`: every outcome of every instruction is one of three, an underflow, a fault raised
after all pops, or a completion whose every field is given. Whole-machine claims follow from it without unfolding a
meaning. -/

namespace Sys2Proof.Machine

/-- The faults that an instruction can raise once its operands are popped (R232). -/
def RaisesAfterPops (i : Instr) : FaultStatus → Prop
  | .illegalAddress w => (i = .load ∨ i = .store) ∧ address? w = none
  | .illegalJumpTarget _ => i.isBranch = true
  | .divisionByZero _ => i = .div ∨ i = .mod
  | .illegalValue _ | .illegalOpcode _ | .stackUnderflow | .fetchOutOfRange _ => False

/-- What a completed instruction leaves, from the entries it popped. -/
structure Completed (i : Instr) (s t : State) (base operands : List Val) : Prop where
  stack : ∃ rs, rs.length = i.pushes ∧ t.stack = base ++ rs
  rom : t.rom = s.rom
  fault : t.fault = s.fault
  mem : (i ≠ .store ∧ t.mem = s.mem) ∨
    (i = .store ∧ ∃ w v a, operands = [w, v] ∧ address? w = some a ∧ t.mem = Memory.write s.mem a v)
  halted : (i ≠ .halt ∧ t.halted = s.halted) ∨ (i = .halt ∧ t.halted = true)
  out : (i ≠ .out ∧ t.out = s.out) ∨ (i = .out ∧ t.out = s.out ++ operands)
  pc : ((∀ imm, i ≠ .push imm) ∧ t.pc = s.pc) ∨ (∃ imm, i = .push imm ∧ t.pc = s.pc + 1) ∨
    (i.isBranch = true ∧ t.pc < s.len)

/-- The three outcomes of an instruction. -/
inductive Effect (i : Instr) (s t : State) : Prop where
  | underflow (few : s.sp < i.pops) (left : t = State.raise .stackUnderflow { s with stack := [] })
  | raised (base operands : List Val) (f : FaultStatus) (found : s.stack = base ++ operands)
      (popped : operands.length = i.pops) (may : RaisesAfterPops i f) (left : t = State.raise f { s with stack := base })
  | completed (base operands : List Val) (found : s.stack = base ++ operands) (popped : operands.length = i.pops)
      (left : Completed i s t base operands)

/-- An instruction of class operate that only computes: one pop. -/
theorem effect_pure1 {i : Instr} {f : Val → List Val} {s t : State} (hp : i.pops = 1)
    (hr : ∀ a, (f a).length = i.pushes) (hi : i ≠ .store ∧ i ≠ .halt ∧ i ≠ .out ∧ ∀ imm, i ≠ .push imm)
    (h : (operate1 (fun a => results (f a)) s).outcome = .next t) : Effect i s t := by
  rcases operate1_cases h with ⟨h0, rfl⟩ | ⟨base, a, hs, g | ⟨rs, u, g, rfl⟩⟩
  · exact .underflow (by rw [hp, State.sp_eq, h0]; decide) (by rw [← h0])
  · cases g
  · simp only [results_eq, Micro.done.injEq] at g
    obtain ⟨rfl, rfl⟩ := g
    exact .completed base [a] hs hp.symm
      ⟨⟨_, hr a, rfl⟩, rfl, rfl, .inl ⟨hi.1, rfl⟩, .inl ⟨hi.2.1, rfl⟩, .inl ⟨hi.2.2.1, rfl⟩, .inl ⟨hi.2.2.2, rfl⟩⟩

/-- An instruction of class operate that only computes: two pops. -/
theorem effect_pure2 {i : Instr} {f : Val → Val → List Val} {s t : State} (hp : i.pops = 2)
    (hr : ∀ a b, (f a b).length = i.pushes) (hi : i ≠ .store ∧ i ≠ .halt ∧ i ≠ .out ∧ ∀ imm, i ≠ .push imm)
    (h : (operate2 (fun a b => results (f a b)) s).outcome = .next t) : Effect i s t := by
  rcases operate2_cases h with ⟨h0, rfl⟩ | ⟨base, a, b, hs, g | ⟨rs, u, g, rfl⟩⟩
  · exact .underflow (by rw [hp]; exact h0) rfl
  · cases g
  · simp only [results_eq, Micro.done.injEq] at g
    obtain ⟨rfl, rfl⟩ := g
    exact .completed base [a, b] hs hp.symm
      ⟨⟨_, hr a b, rfl⟩, rfl, rfl, .inl ⟨hi.1, rfl⟩, .inl ⟨hi.2.1, rfl⟩, .inl ⟨hi.2.2.1, rfl⟩, .inl ⟨hi.2.2.2, rfl⟩⟩

/-- DIV and MOD. -/
theorem effect_divided {i : Instr} {f : Val → Val → Val} {s t : State} (hp : i.pops = 2) (hq : i.pushes = 1)
    (hi : i = .div ∨ i = .mod) (h : (operate2 (divided f) s).outcome = .next t) : Effect i s t := by
  have hn : i ≠ .store ∧ i ≠ .halt ∧ i ≠ .out ∧ ∀ imm, i ≠ .push imm := by
    rcases hi with rfl | rfl <;> simp
  rcases operate2_cases h with ⟨h0, rfl⟩ | ⟨base, a, b, hs, g | ⟨rs, u, g, rfl⟩⟩
  · exact .underflow (by rw [hp]; exact h0) rfl
  · unfold divided at g
    split at g
    · simp only [raise, Micro.raised.injEq] at g
      exact .raised base [a, b] (.divisionByZero a) hs hp.symm hi g.symm
    · cases g
  · unfold divided at g
    split at g
    · cases g
    · simp only [results_eq, Micro.done.injEq] at g
      obtain ⟨rfl, rfl⟩ := g
      exact .completed base [a, b] hs hp.symm
        ⟨⟨[f a b], hq.symm, rfl⟩, rfl, rfl, .inl ⟨hn.1, rfl⟩, .inl ⟨hn.2.1, rfl⟩, .inl ⟨hn.2.2.1, rfl⟩, .inl ⟨hn.2.2.2, rfl⟩⟩

/-- The end of a branch. -/
theorem effect_branch {i : Instr} {taken : Bool} {base operands : List Val} {off : Val} {s t : State}
    (hb : i.isBranch = true) (hq : i.pushes = 0) (hi : i ≠ .store ∧ i ≠ .halt ∧ i ≠ .out ∧ ∀ imm, i ≠ .push imm)
    (found : s.stack = base ++ operands) (popped : operands.length = i.pops)
    (h : BranchEnd taken off { s with stack := base } t) : Effect i s t := by
  have hrs : ∃ rs : List Val, rs.length = i.pushes ∧ base = base ++ rs := ⟨[], hq.symm, by simp⟩
  rcases h with ⟨-, rfl⟩ | ⟨-, n, -, hn, rfl⟩ | ⟨-, -, rfl⟩
  · exact .completed base operands found popped
      ⟨hrs, rfl, rfl, .inl ⟨hi.1, rfl⟩, .inl ⟨hi.2.1, rfl⟩, .inl ⟨hi.2.2.1, rfl⟩, .inl ⟨hi.2.2.2, rfl⟩⟩
  · exact .completed base operands found popped
      ⟨hrs, rfl, rfl, .inl ⟨hi.1, rfl⟩, .inl ⟨hi.2.1, rfl⟩, .inl ⟨hi.2.2.1, rfl⟩, .inr (.inr ⟨hb, hn⟩)⟩
  · exact .raised base operands (.illegalJumpTarget _) found popped hb rfl

/-- The address translator's two answers. -/
theorem addr_cases (w : Val) (s : State) :
    (address? w = none ∧ addr w s = raise (.illegalAddress w) s) ∨
      ∃ a, address? w = some a ∧ addr w s = .done a s := by
  unfold addr
  cases address? w with
  | none => exact .inl ⟨rfl, rfl⟩
  | some a => exact .inr ⟨a, rfl, rfl⟩

/-- Every outcome of every instruction. -/
theorem exec_effect {i : Instr} {s t : State} (h : exec i s = .next t) : Effect i s t := by
  cases i with
  | nop =>
    simp only [exec, execNop, operate0_eq, results_eq, Micro.andThen_done, pushResults_eq, Micro.outcome_done,
      Host.Outcome.next.injEq] at h
    subst h
    exact .completed s.stack [] (by simp) rfl
      ⟨⟨[], rfl, rfl⟩, rfl, rfl, .inl ⟨by simp, rfl⟩, .inl ⟨by simp, rfl⟩, .inl ⟨by simp, rfl⟩, .inl ⟨by simp, rfl⟩⟩
  | push imm =>
    simp only [exec, execPush, pushResults_eq, Micro.outcome_done, Host.Outcome.next.injEq] at h
    subst h
    exact .completed s.stack [] (by simp) rfl
      ⟨⟨[imm], rfl, rfl⟩, rfl, rfl, .inl ⟨by simp, rfl⟩, .inl ⟨by simp, rfl⟩, .inl ⟨by simp, rfl⟩,
        .inr (.inl ⟨imm, rfl, rfl⟩)⟩
  | halt =>
    simp only [exec, execHalt, Host.Outcome.next.injEq] at h
    subst h
    exact .completed s.stack [] (by simp) rfl
      ⟨⟨[], rfl, by simp⟩, rfl, rfl, .inl ⟨by simp, rfl⟩, .inr ⟨rfl, rfl⟩, .inl ⟨by simp, rfl⟩, .inl ⟨by simp, rfl⟩⟩
  | drop => exact effect_pure1 (f := fun _ => []) rfl (fun _ => rfl) (by simp) h
  | dup => exact effect_pure1 (f := fun a => [a, a]) rfl (fun _ => rfl) (by simp) h
  | not => exact effect_pure1 (f := fun a => [ofInt32 (~~~ toInt32 a)]) rfl (fun _ => rfl) (by simp) h
  | overOp => exact effect_pure2 (f := fun a b => [a, b, a]) rfl (fun _ _ => rfl) (by simp) h
  | swap => exact effect_pure2 (f := fun a b => [b, a]) rfl (fun _ _ => rfl) (by simp) h
  | add => exact effect_pure2 (f := fun a b => [a + b]) rfl (fun _ _ => rfl) (by simp) h
  | sub => exact effect_pure2 (f := fun a b => [a - b]) rfl (fun _ _ => rfl) (by simp) h
  | mul => exact effect_pure2 (f := fun a b => [a * b]) rfl (fun _ _ => rfl) (by simp) h
  | and => exact effect_pure2 (f := fun a b => [ofInt32 (toInt32 a &&& toInt32 b)]) rfl (fun _ _ => rfl) (by simp) h
  | or => exact effect_pure2 (f := fun a b => [ofInt32 (toInt32 a ||| toInt32 b)]) rfl (fun _ _ => rfl) (by simp) h
  | div => exact effect_divided rfl rfl (.inl rfl) h
  | mod => exact effect_divided rfl rfl (.inr rfl) h
  | out =>
    rcases operate1_cases h with ⟨h0, rfl⟩ | ⟨base, a, hs, g | ⟨rs, u, g, rfl⟩⟩
    · exact .underflow (by rw [State.sp_eq, h0]; decide) (by rw [← h0])
    · cases g
    · simp only [results_eq, Micro.done.injEq] at g
      obtain ⟨rfl, rfl⟩ := g
      exact .completed base [a] hs rfl
        ⟨⟨[], rfl, rfl⟩, rfl, rfl, .inl ⟨by simp, rfl⟩, .inl ⟨by simp, rfl⟩, .inr ⟨rfl, rfl⟩, .inl ⟨by simp, rfl⟩⟩
  | load =>
    rcases operate1_cases h with ⟨h0, rfl⟩ | ⟨base, w, hs, g | ⟨rs, u, g, rfl⟩⟩
    · exact .underflow (by rw [State.sp_eq, h0]; decide) (by rw [← h0])
    · rcases addr_cases w { s with stack := base } with ⟨hw, e⟩ | ⟨a, -, e⟩
      · rw [e] at g
        simp only [raise, Micro.andThen_raised, Micro.raised.injEq] at g
        exact .raised base [w] (.illegalAddress w) hs rfl ⟨.inl rfl, hw⟩ g.symm
      · rw [e] at g
        cases g
    · rcases addr_cases w { s with stack := base } with ⟨-, e⟩ | ⟨a, -, e⟩
      · rw [e] at g
        cases g
      · rw [e] at g
        simp only [Micro.andThen_done, results_eq, Micro.done.injEq] at g
        obtain ⟨rfl, rfl⟩ := g
        exact .completed base [w] hs rfl
          ⟨⟨_, rfl, rfl⟩, rfl, rfl, .inl ⟨by simp, rfl⟩, .inl ⟨by simp, rfl⟩, .inl ⟨by simp, rfl⟩, .inl ⟨by simp, rfl⟩⟩
  | store =>
    rcases operate2_cases h with ⟨h0, rfl⟩ | ⟨base, w, v, hs, g | ⟨rs, u, g, rfl⟩⟩
    · exact .underflow h0 rfl
    · rcases addr_cases w { s with stack := base } with ⟨hw, e⟩ | ⟨a, -, e⟩
      · rw [e] at g
        simp only [raise, Micro.andThen_raised, Micro.raised.injEq] at g
        exact .raised base [w, v] (.illegalAddress w) hs rfl ⟨.inr rfl, hw⟩ g.symm
      · rw [e] at g
        cases g
    · rcases addr_cases w { s with stack := base } with ⟨-, e⟩ | ⟨a, ha, e⟩
      · rw [e] at g
        cases g
      · rw [e] at g
        simp only [Micro.andThen_done, results_eq, Micro.done.injEq] at g
        obtain ⟨rfl, rfl⟩ := g
        exact .completed base [w, v] hs rfl
          ⟨⟨[], rfl, rfl⟩, rfl, rfl, .inr ⟨rfl, w, v, a, rfl, ha, rfl⟩, .inl ⟨by simp, rfl⟩, .inl ⟨by simp, rfl⟩,
            .inl ⟨by simp, rfl⟩⟩
  | jmp =>
    rcases branch0_cases h with ⟨h0, rfl⟩ | ⟨base, off, hs, e⟩
    · exact .underflow h0 rfl
    · exact effect_branch rfl rfl (by simp) hs rfl e
  | jz | jnz =>
    rcases branch1_cases h with ⟨h0, rfl⟩ | ⟨base, a, off, hs, e⟩
    · exact .underflow h0 rfl
    · exact effect_branch rfl rfl (by simp) hs rfl e
  | je | jg | jl =>
    rcases branch2_cases h with ⟨h0, rfl⟩ | ⟨base, a, b, off, hs, e⟩
    · exact .underflow h0 rfl
    · exact effect_branch rfl rfl (by simp) hs rfl e

end Sys2Proof.Machine
end

