-- ==== Sys2Proof/Laws/Memory.lean ====
section
/-! SUPPORT. RAM: every operation keeps the canonical form, a read after a write gives what was written, a write leaves
every other address alone, and equal contents are equal data (20_memory.md R50, R54, R55, R56). -/

namespace Sys2Proof.Machine

@[simp] theorem Memory.read_nil (a : Nat) : Memory.read [] a = 0 := rfl

@[simp] theorem Memory.read_cell (b : Nat) (w : Val) (m : Memory) (a : Nat) :
    Memory.read ((b, w) :: m) a = if a = b then w else Memory.read m a := rfl

theorem Memory.wf_nil : Memory.wf [] := by
  simp [Memory.wf]

theorem Memory.wf_tail {c : Nat × Val} {m : Memory} (h : Memory.wf (c :: m)) : Memory.wf m :=
  ⟨(List.pairwise_cons.mp h.1).2, fun d hd => h.2 d (List.mem_cons_of_mem c hd)⟩

/-- Below the first cell of a canonical memory nothing is listed. -/
theorem Memory.read_below {m : Memory} {a : Nat} (h : ∀ c ∈ m, a < c.1) : Memory.read m a = 0 := by
  induction m with
  | nil => rfl
  | cons c m ih =>
    obtain ⟨b, w⟩ := c
    have hb : a < b := h (b, w) List.mem_cons_self
    rw [Memory.read_cell, if_neg (by omega)]
    exact ih fun c hc => h c (List.mem_cons_of_mem _ hc)

theorem Memory.read_cons (a : Nat) (v : Val) (m : Memory) (h : ∀ c ∈ m, a < c.1) (b : Nat) :
    Memory.read (Memory.cons a v m) b = if b = a then v else Memory.read m b := by
  unfold Memory.cons
  split
  · rename_i hv
    split
    · rename_i hb
      rw [hb, Memory.read_below h, hv]
      rfl
    · rfl
  · rfl

theorem Memory.wf_cons {a : Nat} {m : Memory} (v : Val) (h : ∀ c ∈ m, a < c.1) (hm : Memory.wf m) :
    Memory.wf (Memory.cons a v m) := by
  unfold Memory.cons
  split
  · exact hm
  · rename_i hv
    refine ⟨List.pairwise_cons.mpr ⟨fun c hc => h c hc, hm.1⟩, ?_⟩
    intro c hc
    rcases List.mem_cons.mp hc with rfl | hc
    · exact hv
    · exact hm.2 c hc

theorem Memory.mem_cons_of {a : Nat} {v : Val} {m : Memory} {c : Nat × Val} (h : c ∈ Memory.cons a v m) :
    c.1 = a ∨ c ∈ m := by
  unfold Memory.cons at h
  split at h
  · exact .inr h
  · rcases List.mem_cons.mp h with rfl | h
    · exact .inl rfl
    · exact .inr h

/-- A write lists no address but its own and those listed before. -/
theorem Memory.mem_write {m : Memory} {a : Nat} {v : Val} {c : Nat × Val} (h : c ∈ Memory.write m a v) :
    c.1 = a ∨ c ∈ m := by
  induction m with
  | nil => exact Memory.mem_cons_of h
  | cons d m ih =>
    obtain ⟨b, w⟩ := d
    unfold Memory.write at h
    split at h
    · exact Memory.mem_cons_of h
    · split at h
      · exact (Memory.mem_cons_of h).imp_right (List.mem_cons_of_mem _)
      · rcases List.mem_cons.mp h with rfl | h
        · exact .inr List.mem_cons_self
        · exact (ih h).imp_right (List.mem_cons_of_mem _)

/-- A write keeps the canonical form. -/
theorem Memory.wf_write {m : Memory} (hm : Memory.wf m) (a : Nat) (v : Val) : Memory.wf (Memory.write m a v) := by
  induction m with
  | nil => exact Memory.wf_cons v (by simp) hm
  | cons d m ih =>
    obtain ⟨b, w⟩ := d
    have hlt : ∀ c ∈ m, b < c.1 := (List.pairwise_cons.mp hm.1).1
    have hm' := Memory.wf_tail hm
    unfold Memory.write
    split
    · refine Memory.wf_cons v ?_ hm
      intro c hc
      rcases List.mem_cons.mp hc with rfl | hc
      · assumption
      · have := hlt c hc; omega
    · split
      · subst a
        exact Memory.wf_cons v hlt hm'
      · refine ⟨List.pairwise_cons.mpr ⟨?_, (ih hm').1⟩, ?_⟩
        · intro c hc
          rcases Memory.mem_write hc with h | h
          · simp only; omega
          · exact hlt c h
        · intro c hc
          rcases List.mem_cons.mp hc with rfl | hc
          · exact hm.2 _ List.mem_cons_self
          · exact (ih hm').2 c hc

/-- What every address reads as after a write to a canonical memory. -/
theorem Memory.read_write {m : Memory} (hm : Memory.wf m) (a : Nat) (v : Val) (b : Nat) :
    Memory.read (Memory.write m a v) b = if b = a then v else Memory.read m b := by
  induction m with
  | nil => exact Memory.read_cons a v [] (by simp) b
  | cons d m ih =>
    obtain ⟨c, w⟩ := d
    have hlt : ∀ e ∈ m, c < e.1 := (List.pairwise_cons.mp hm.1).1
    have hm' := Memory.wf_tail hm
    unfold Memory.write
    split
    · refine Memory.read_cons a v _ ?_ b
      intro e he
      rcases List.mem_cons.mp he with rfl | he
      · assumption
      · have := hlt e he; omega
    · split
      · subst a
        rw [Memory.read_cons c v m hlt, Memory.read_cell]
        split <;> simp_all
      · rw [Memory.read_cell, Memory.read_cell, ih hm']
        split
        · rw [if_neg (by omega)]
        · rfl

end Sys2Proof.Machine
end

