-- ==== Sys2Proof/Laws/PerInstr.lean ====
section
/-! SUPPORT. The family RoundTrip: the slots an instruction is encoded as decode to it, whatever follows them
(30_encoding.md R85, R87, R95). -/

namespace Sys2Proof.Laws.RoundTrip

open Sys2Proof

/-- Decoding the encoding of `i`, with any slots after it, gives `i` and those slots. -/
def Statement (i : Instr) : Prop :=
  ∀ rest : List Slot, decode (encode i ++ rest) = .instr i rest

/-- A one-slot instruction whose opcode's row names it. -/
theorem ofRow {i : Instr} (hl : i.literals = []) (hk : (opcodeTable[i.opcode]?).map OpcodeRow.kind = some (.s1 i)) :
    Statement i := by
  intro rest
  rw [encode, hl]
  exact decode_s1 (by rw [decodeOpcode_natCast, hk]) rest

theorem push (imm : Val) : Statement (.push imm) := by
  intro rest
  exact decode_s2 (decodeOpcode_natCast 1) (.num imm :: rest)

theorem nop : Statement .nop := ofRow rfl rfl

theorem drop : Statement .drop := ofRow rfl rfl

theorem dup : Statement .dup := ofRow rfl rfl

theorem overOp : Statement .overOp := ofRow rfl rfl

theorem swap : Statement .swap := ofRow rfl rfl

theorem load : Statement .load := ofRow rfl rfl

theorem store : Statement .store := ofRow rfl rfl

theorem jmp : Statement .jmp := ofRow rfl rfl

theorem jz : Statement .jz := ofRow rfl rfl

theorem jnz : Statement .jnz := ofRow rfl rfl

theorem je : Statement .je := ofRow rfl rfl

theorem jg : Statement .jg := ofRow rfl rfl

theorem jl : Statement .jl := ofRow rfl rfl

theorem halt : Statement .halt := ofRow rfl rfl

theorem out : Statement .out := ofRow rfl rfl

theorem add : Statement .add := ofRow rfl rfl

theorem sub : Statement .sub := ofRow rfl rfl

theorem mul : Statement .mul := ofRow rfl rfl

theorem div : Statement .div := ofRow rfl rfl

theorem mod : Statement .mod := ofRow rfl rfl

theorem not : Statement .not := ofRow rfl rfl

theorem and : Statement .and := ofRow rfl rfl

theorem or : Statement .or := ofRow rfl rfl

end Sys2Proof.Laws.RoundTrip
end

