-- ==== Sys2Proof/Laws/Step.lean ====
section
/-! SUPPORT. What fetch, `exec` and `step` can answer, said once. -/

namespace Sys2Proof.Machine

/-- The slots at the program counter, one at a time. -/
theorem drop_pc {rom : List Slot} {pc : Nat} {x : Slot} (h : rom[pc]? = some x) :
    rom.drop pc = x :: rom.drop (pc + 1) := by
  obtain ⟨hlt, rfl⟩ := List.getElem?_eq_some_iff.mp h
  exact List.drop_eq_getElem_cons hlt

/-- Fetch and decode give an instruction exactly where the slots at `pc` decode to one, and leave `pc` after the
opcode slot. -/
theorem fetchInstr_done {s t : State} {i : Instr} (h : fetchInstr s = .done i t) :
    t = s.setPc (s.pc + 1) ∧ s.pc < s.len ∧ (∃ rest, decode (s.rom.drop s.pc) = .instr i rest) ∧
      (∀ imm, i = .push imm → s.pc + 1 < s.len) := by
  obtain ⟨v, u, hf, hdk⟩ := Micro.andThen_eq_done.mp h
  obtain ⟨v', u', hr, he⟩ := Micro.andThen_eq_done.mp hf
  simp only [Micro.done.injEq] at he
  obtain ⟨rfl, rfl⟩ := he
  have hslot : s.rom[s.pc]? = some (.num v') ∧ u' = s := by
    unfold readSlot at hr
    split at hr
    · cases hr
    · cases hr
    · rename_i w hw
      simp only [Micro.done.injEq] at hr
      exact ⟨by rw [hw, hr.1], hr.2.symm⟩
  obtain ⟨hslot, rfl⟩ := hslot
  have hlt : u'.pc < u'.len := (List.getElem?_eq_some_iff.mp hslot).1
  rw [drop_pc hslot]
  obtain ⟨k, u, hk, hc⟩ := Micro.andThen_eq_done.mp hdk
  have hdec : decodeOpcode v' = some k ∧ u = u'.setPc (u'.pc + 1) := by
    unfold decodeKind at hk
    split at hk
    · cases hk
    · rename_i k' hk'
      simp only [Micro.done.injEq] at hk
      exact ⟨by rw [hk', hk.1], hk.2.symm⟩
  obtain ⟨hdec, rfl⟩ := hdec
  cases k with
  | s1 j =>
    simp only [completeKind, Micro.done.injEq] at hc
    obtain ⟨rfl, rfl⟩ := hc
    refine ⟨rfl, hlt, ⟨_, decode_s1 hdec _⟩, ?_⟩
    rintro imm rfl
    obtain ⟨n, hn, -, hrow⟩ := decodeOpcode_some hdec
    have : ∀ n < 24, ∀ imm, (opcodeTable[n]?).map OpcodeRow.kind ≠ some (.s1 (.push imm)) := by
      intro n hn imm
      interval_cases n <;> simp [opcodeTable]
    exact absurd hrow (this n hn imm)
  | s2Push =>
    obtain ⟨imm, w, hl, hd⟩ := Micro.andThen_eq_done.mp hc
    simp only [Micro.done.injEq] at hd
    obtain ⟨rfl, rfl⟩ := hd
    have hlit : u'.rom[u'.pc + 1]? = some (.num imm) ∧ w = u'.setPc (u'.pc + 1) := by
      unfold readSlot at hl
      split at hl
      · cases hl
      · cases hl
      · rename_i x hx
        simp only [Micro.done.injEq] at hl
        rw [← hl.1]
        exact ⟨hx, hl.2.symm⟩
    obtain ⟨hlit, rfl⟩ := hlit
    refine ⟨rfl, hlt, ⟨u'.rom.drop (u'.pc + 1 + 1), ?_⟩, fun _ _ => (List.getElem?_eq_some_iff.mp hlit).1⟩
    rw [decode_s2 hdec, drop_pc hlit]
    rfl

/-- The states a failed fetch or decode leaves (R237): FetchOutOfRange or IllegalValue at the slot that failed, which
is `pc` afterwards, or IllegalOpcode with `pc` after the opcode. -/
theorem fetchInstr_raised {s t : State} (h : fetchInstr s = .raised t) :
    (s.rom[s.pc]? = none ∧ t = s.raise (.fetchOutOfRange s.pc)) ∨
      (s.rom[s.pc]? = some .bad ∧ t = s.raise (.illegalValue s.pc)) ∨
      (∃ v, s.rom[s.pc]? = some (.num v) ∧ decodeOpcode v = none ∧
        t = (s.setPc (s.pc + 1)).raise (.illegalOpcode v)) ∨
      (∃ v, s.rom[s.pc]? = some (.num v) ∧ decodeOpcode v = some .s2Push ∧ s.rom[s.pc + 1]? = none ∧
        t = (s.setPc (s.pc + 1)).raise (.fetchOutOfRange (s.pc + 1))) ∨
      (∃ v, s.rom[s.pc]? = some (.num v) ∧ decodeOpcode v = some .s2Push ∧ s.rom[s.pc + 1]? = some .bad ∧
        t = (s.setPc (s.pc + 1)).raise (.illegalValue (s.pc + 1))) := by
  unfold fetchInstr fetch at h
  cases e : s.rom[s.pc]? with
  | none =>
    rw [readSlot_end e] at h
    exact .inl ⟨rfl, by simpa [raise] using h.symm⟩
  | some x =>
    cases x with
    | bad =>
      rw [readSlot_bad e] at h
      exact .inr (.inl ⟨rfl, by simpa [raise] using h.symm⟩)
    | num v =>
      rw [readSlot_num e, Micro.andThen_done, Micro.andThen_done] at h
      cases d : decodeOpcode v with
      | none =>
        simp only [decodeKind, d, raise_andThen] at h
        exact .inr (.inr (.inl ⟨v, rfl, d, by simpa [raise] using h.symm⟩))
      | some k =>
        simp only [decodeKind, d, Micro.andThen_done] at h
        cases k with
        | s1 i => simp [completeKind] at h
        | s2Push =>
          simp only [completeKind] at h
          cases l : s.rom[s.pc + 1]? with
          | none =>
            rw [readSlot_end (s := s.setPc (s.pc + 1)) l] at h
            exact .inr (.inr (.inr (.inl ⟨v, rfl, d, rfl, by simpa [raise] using h.symm⟩)))
          | some y =>
            cases y with
            | bad =>
              rw [readSlot_bad (s := s.setPc (s.pc + 1)) l] at h
              exact .inr (.inr (.inr (.inr ⟨v, rfl, d, rfl, by simpa [raise] using h.symm⟩)))
            | num imm =>
              rw [readSlot_num (s := s.setPc (s.pc + 1)) l] at h
              simp at h

/-- An instruction always answers a next state: its faults are next states too (R236; log 3). -/
theorem exec_next (i : Instr) (s : State) : ∃ t, exec i s = .next t := by
  cases i <;> first | exact Micro.outcome_next _ | exact ⟨_, rfl⟩

/-- Everything a step that answers a next state can be (R90). -/
theorem step_cases {s t : State} (h : step s = .next t) :
    s.fault = none ∧
      ((s.halted = true ∧ t = s) ∨
        (s.halted = false ∧
          (fetchInstr s = .raised t ∨
            ∃ i u, fetchInstr s = .done i (s.setPc (s.pc + 1)) ∧ exec i (s.setPc (s.pc + 1)) = .next u ∧
              t = endCheck u))) := by
  unfold step at h
  split at h
  · cases h
  · rename_i hf
    refine ⟨hf, ?_⟩
    split at h
    · rename_i hh
      exact .inl ⟨hh, by simpa using h.symm⟩
    · rename_i hh
      refine .inr ⟨by simpa using hh, ?_⟩
      split at h
      · rename_i u e
        exact .inl (by rw [e]; simpa using h)
      · rename_i i u e
        obtain ⟨rfl, -⟩ := fetchInstr_done e
        obtain ⟨w, hw⟩ := exec_next i (s.setPc (s.pc + 1))
        rw [hw, endCycle_next, Host.Outcome.next.injEq] at h
        exact .inr ⟨i, w, e, hw, h.symm⟩

/-- A running state's step, from its fetch. -/
theorem step_running {s : State} (h : s.Running) :
    step s = match fetchInstr s with
      | .raised t => .next t
      | .done i t => endCycle (exec i t) := by
  unfold step
  rw [h.2]
  simp only [h.1]
  rfl

/-- A property that reset has and every step keeps holds of every state a run reaches. -/
theorem Reachable.induct {rom : List Slot} {P : State → Prop} (h0 : P (State.resetWith rom))
    (hs : ∀ s t, P s → Machine.step s = .next t → P t) {s : State} (h : Reachable rom s) : P s := by
  induction h with
  | atReset => exact h0
  | afterStep _ cycle ih => exact hs _ _ ih cycle

end Sys2Proof.Machine
end

