-- ==== Sys2Proof/Machine/Assembler.lean ====
section
/-! DEFINITION. The assembler syntax (30_encoding.md R94, R95): program text to the ROM it stands for. It has no
behaviour (D16) and nothing in the machine depends on it. Points of layout that R94 leaves open are named in log 10. -/

namespace Sys2Proof.Machine

/-- The value of a digit in a base; hexadecimal letters in either case. -/
def digitValue (base : Nat) (c : Char) : Option Nat :=
  let d :=
    if '0' ≤ c ∧ c ≤ '9' then c.toNat - '0'.toNat
    else if 'a' ≤ c ∧ c ≤ 'f' then c.toNat - 'a'.toNat + 10
    else if 'A' ≤ c ∧ c ≤ 'F' then c.toNat - 'A'.toNat + 10
    else base
  if d < base then some d else none

/-- Digits, the most significant first, continuing a number read so far. -/
def readDigits (base : Nat) : Nat → List Char → Option Nat
  | n, [] => some n
  | n, c :: cs =>
    match digitValue base c with
    | none => none
    | some d => readDigits base (n * base + d) cs

/-- A natural number with at least one digit. -/
def readNat (base : Nat) : List Char → Option Nat
  | [] => none
  | c :: cs => readDigits base 0 (c :: cs)

/-- The text before and after the first `mark`, if there is one. -/
def cutAt (mark : Char) : List Char → Option (List Char × List Char)
  | [] => none
  | c :: cs => if c = mark then some ([], cs) else (cutAt mark cs).map fun (before, after) => (c :: before, after)

/-- A decimal fraction such as `2.5`, from the digits before and after its point. -/
def readFraction (whole part : List Char) : Option Val :=
  match readNat 10 whole, readNat 10 part with
  | some n, some p => some ((n : Val) + (p : Val) / ((10 ^ part.length : Nat) : Val))
  | _, _ => none

/-- A ratio such as `1/3`; its denominator is not 0. -/
def readRatio (numer denom : List Char) : Option Val :=
  match readNat 10 numer, readNat 10 denom with
  | some n, some d => if d = 0 then none else some ((n : Val) / (d : Val))
  | _, _ => none

/-- A literal without its sign: "a decimal number, a `0x` hexadecimal integer, a decimal fraction such as `2.5`, or a
ratio such as `1/3`" (R94). -/
def readUnsigned (text : List Char) : Option Val :=
  match text with
  | '0' :: 'x' :: hex => (readNat 16 hex).map fun n => (n : Val)
  | _ =>
    match cutAt '/' text with
    | some (numer, denom) => readRatio numer denom
    | none =>
      match cutAt '.' text with
      | some (whole, part) => readFraction whole part
      | none => (readNat 10 text).map fun n => (n : Val)

/-- A literal, "with an optional leading `-`" (R94). -/
def readLiteral : List Char → Option Val
  | '-' :: text => (readUnsigned text).map fun v => -v
  | text => readUnsigned text

/-- The text without its comments, which "start with `--`" (R94) and end with their line. -/
def dropComments : Bool → List Char → List Char
  | _, [] => []
  | _, '\n' :: cs => '\n' :: dropComments false cs
  | true, _ :: cs => dropComments true cs
  | false, '-' :: '-' :: cs => dropComments true cs
  | false, c :: cs => c :: dropComments false cs

/-- The pieces of a text between separators. -/
def splitText (separates : Char → Bool) : List Char → List (List Char)
  | [] => [[]]
  | c :: cs =>
    if separates c then [] :: splitText separates cs
    else
      match splitText separates cs with
      | [] => [[c]]
      | word :: words => (c :: word) :: words

/-- The words of a statement. -/
def wordsOf (text : List Char) : List (List Char) :=
  (splitText Char.isWhitespace text).filter fun word => !word.isEmpty

/-- The slots of one statement: nothing for an empty one, PUSH with one literal, any other mnemonic alone (R94, R95). -/
def readStatement (words : List (List Char)) : Option (List Slot) :=
  match words with
  | [] => some []
  | mnemonic :: operands =>
    match opcodeTable.find? (fun row => row.mnemonic.toList == mnemonic) with
    | none => none
    | some row =>
      match row.kind, operands with
      | .s1 i, [] => some (encode i)
      | .s2Push, [literal] => (readLiteral literal).map fun v => encode (.push v)
      | _, _ => none

/-- The slots of statements one after another, or `none` if one of them is malformed. -/
def readStatements : List (List Char) → Option (List Slot)
  | [] => some []
  | statement :: rest =>
    match readStatement (wordsOf statement), readStatements rest with
    | some slots, some more => some (slots ++ more)
    | _, _ => none

/-- Program text to ROM: "one instruction per line or separated by `;`" (R94). -/
def assembleText (text : String) : Option (List Slot) :=
  readStatements (splitText (fun c => c == ';' || c == '\n') (dropComments false text.toList))

end Sys2Proof.Machine
end

