-- ==== Sys2Proof/Tests/Slice0.lean ====
section
/-! SUPPORT. Small tests, each with its result taken from the rule of spec/ its comment names, and for every obligation
with hypotheses a witness that meets them: each clause's, at a boundary value of its range. -/

open Sys2Proof Sys2Proof.Machine Sys2Proof.SpecForm

namespace Sys2Proof.Tests

/-! ### Helpers -/

/-- A running state with nothing in memory and nothing emitted. -/
def running (rom : List Slot) (pc : Nat) (stack : List Val) : State :=
  { State.resetWith rom with pc := pc, stack := stack, halted := false }

/-- The next state of an outcome. -/
def nextOf : Host.Outcome State Fault Refusal → Option State
  | .next t => some t
  | .fault _ => none
  | .refused _ => none

/-- `n` slots that hold NOP. -/
def nops (n : Nat) : List Slot := List.replicate n (.num 0x00)

/-- The stack after a completed instruction, in a running state; none if it faults. -/
def stackAfter (i : Instr) (stack : List Val) : Option (List Val) :=
  (nextOf (exec i (running (nops 20) 1 stack))).bind fun t => if t.fault = none then some t.stack else none

/-- The fault after an instruction, in a running state. -/
def faultAfter (i : Instr) (stack : List Val) : Option FaultStatus :=
  (nextOf (exec i (running (nops 20) 1 stack))).bind State.fault

/-- The `pc` after one cycle that does not fault. -/
def pcAfterStep (s : State) : Option Nat :=
  (nextOf (step s)).bind fun t => if t.fault = none then some t.pc else none

/-- The fault of one cycle. -/
def faultOfStep (s : State) : Option FaultStatus :=
  (nextOf (step s)).bind State.fault

/-! ### Well-formedness -/

/-- R21: a `Bad` slot is ill formed, a number is not. -/
theorem test_bad_slot_is_ill_formed : Slot.wellFormed .bad = false ∧ Slot.wellFormed (.num (-1 / 2)) = true := by
  decide +kernel

/-- R21: one `Bad` slot makes a ROM ill formed. -/
theorem test_rom_with_a_bad_slot_is_ill_formed :
    romWellFormed [.num 0x01, .bad] = false ∧ romWellFormed [.num 0x01, .num 7] = true := by decide

/-- R87: a PUSH literal has no range limit. -/
theorem test_any_literal_is_well_formed : (Instr.push (-7 / 2)).wellFormed = true := by decide

/-! ### Decoding, from the opcode column of R85 -/

theorem test_decode_stack_family :
    decode [.num 0x00] = .instr .nop [] ∧ decode [.num 0x01, .num 7] = .instr (.push 7) [] ∧
    decode [.num 0x02] = .instr .drop [] ∧ decode [.num 0x03] = .instr .dup [] ∧
    decode [.num 0x04] = .instr .overOp [] ∧ decode [.num 0x05] = .instr .swap [] := by decide

theorem test_decode_memory_family :
    decode [.num 0x06] = .instr .load [] ∧ decode [.num 0x07, .bad] = .instr .store [.bad] := by decide

theorem test_decode_control_family :
    decode [.num 0x08] = .instr .jmp [] ∧ decode [.num 0x09] = .instr .jz [] ∧
    decode [.num 0x0A] = .instr .jnz [] ∧ decode [.num 0x0B] = .instr .je [] ∧
    decode [.num 0x0C] = .instr .jg [] ∧ decode [.num 0x0D] = .instr .jl [] ∧
    decode [.num 0x0E] = .instr .halt [] := by decide

theorem test_decode_output_family : decode [.num 0x0F] = .instr .out [] := by decide

theorem test_decode_arithmetic_family :
    decode [.num 0x10] = .instr .add [] ∧ decode [.num 0x11] = .instr .sub [] ∧
    decode [.num 0x12] = .instr .mul [] ∧ decode [.num 0x13] = .instr .div [] ∧
    decode [.num 0x14] = .instr .mod [] := by decide

theorem test_decode_bitwise_family :
    decode [.num 0x15] = .instr .not [] ∧ decode [.num 0x16] = .instr .and [] ∧
    decode [.num 0x17] = .instr .or [] := by decide

/-- R91, E12: the first value past the table, a negative value and a large one. -/
theorem test_decode_rejects_values_outside_the_table :
    decode [.num 0x18] = .illegalOpcode 0x18 ∧ decode [.num (-1)] = .illegalOpcode (-1) ∧
    decode [.num 4294967296] = .illegalOpcode 4294967296 := by decide

/-- R91: a fractional value. -/
theorem test_decode_rejects_fractions : decode [.num (3 / 2)] = .illegalOpcode (3 / 2) := by decide +kernel

/-- R82, R83, R87. -/
theorem test_decode_rejects_missing_and_bad_slots :
    decode [] = .noOpcode ∧ decode [.bad, .num 0] = .badOpcode ∧ decode [.num 0x01] = .noLiteral ∧
    decode [.num 0x01, .bad] = .badLiteral := by decide

/-- R86: the arity columns. -/
theorem test_arities : Instr.pops .jg = 3 ∧ Instr.pushes .overOp = 3 ∧ Instr.pops .store = 2 ∧
    Instr.pushes (.push 1) = 1 ∧ Instr.pops .halt = 0 := by decide

/-- Log 6: the table word of PUSH with no literal bits, and of a one-slot row. -/
theorem test_table_words : decodeTableWord 8 0x01 = some (.push 0) ∧ decodeTableWord 8 0x17 = some .or ∧
    decodeTableWord 8 0x18 = none := by decide

/-- Log 6: a placed instruction is the next one to run. -/
theorem test_placed_word_runs_next :
    fetchInstr (State.reset.withFetchWord 8 0x0E) =
      .done .halt ((State.reset.withFetchWord 8 0x0E).setPc 1) := by rfl

/-! ### Assembler text (R94, R95) -/

/-- E10. -/
theorem test_text_of_the_source_example :
    assembleText "PUSH 2; PUSH 3; ADD; OUT" =
      some [.num 0x01, .num 2, .num 0x01, .num 3, .num 0x10, .num 0x0F] := by decide +kernel

theorem test_text_literal_forms :
    assembleText "PUSH -0x1F -- low bits\nPUSH 2.5\nPUSH -1/3" =
      some [.num 0x01, .num (-31), .num 0x01, .num (5 / 2), .num 0x01, .num (-1 / 3)] := by decide +kernel

theorem test_text_rejects_missing_and_spare_operands :
    assembleText "PUSH" = none ∧ assembleText "ADD 1" = none ∧ assembleText "CALL" = none ∧
    assembleText "PUSH 1/0" = none := by decide +kernel

/-! ### Stack instructions -/

/-- R120, the example. -/
theorem test_nop : nextOf (step (running [.num 0x00] 0 [])) =
    some { running [.num 0x00] 0 [] with pc := 1, halted := true } := by decide +kernel

/-- R121, the example. -/
theorem test_push : nextOf (step (running [.num 0x01, .num 7] 0 [])) =
    some { running [.num 0x01, .num 7] 0 [] with pc := 2, stack := [7], halted := true } := by decide +kernel

/-- R121: PUSH in the last slot. -/
theorem test_push_without_literal :
    faultOfStep (running [.num 0x00, .num 0x01] 1 []) = some (.fetchOutOfRange 2) := by decide +kernel

/-- R122. -/
theorem test_drop : stackAfter .drop [4, 9] = some [4] := by decide +kernel

/-- R123. -/
theorem test_dup : stackAfter .dup [4, 9] = some [4, 9, 9] := by decide +kernel

/-- R124. -/
theorem test_over : stackAfter .overOp [4, 9] = some [4, 9, 4] := by decide +kernel

/-- R125. -/
theorem test_swap : stackAfter .swap [1, 4, 9] = some [1, 9, 4] := by decide +kernel

/-- R124, R93: one entry only. -/
theorem test_over_underflow : nextOf (exec .overOp (running (nops 2) 1 [4])) =
    some { running (nops 2) 1 [] with fault := some .stackUnderflow } := by decide +kernel

/-! ### Memory instructions -/

/-- R140, the example. -/
theorem test_load : (nextOf (exec .load { running (nops 2) 1 [5] with mem := [(5, 42)] })).map State.stack =
    some [42] := by decide +kernel

/-- R140: fractional and negative addresses. -/
theorem test_load_illegal_address : faultAfter .load [5 / 2] = some (.illegalAddress (5 / 2)) ∧
    faultAfter .load [-1] = some (.illegalAddress (-1)) := by decide +kernel

/-- R141, the example, between two other cells. -/
theorem test_store : (nextOf (exec .store { running (nops 2) 1 [5, 42] with mem := [(4, 1), (6, 1)] })).map State.mem =
    some [(4, 1), (5, 42), (6, 1)] := by decide +kernel

/-- R141: storing 0 makes the cell the same as one never written. -/
theorem test_store_zero : (nextOf (exec .store { running (nops 2) 1 [5, 0] with mem := [(5, 42)] })).map State.mem =
    some [] := by decide +kernel

/-! ### Control transfer -/

/-- R155, the example: the JMP at index 2. -/
theorem test_jmp :
    pcAfterStep (running [.num 0x01, .num 2, .num 0x08, .num 0x0E, .num 0x0E, .num 0x00] 2 [2]) = some 5 := by
  decide +kernel

/-- R155, E8a: offset 0 in the last slot has target LEN. -/
theorem test_jmp_to_len :
    faultOfStep (running [.num 0x01, .num 0, .num 0x08] 2 [0]) = some (.illegalJumpTarget 3) := by decide +kernel

/-- R156, the example. -/
theorem test_jz : pcAfterStep (running (nops 4 ++ [.num 0x09] ++ nops 4) 4 [0, 3]) = some 8 := by decide +kernel

/-- R156: the comparison is exact. -/
theorem test_jz_small_value : pcAfterStep (running (nops 4 ++ [.num 0x09] ++ nops 4) 4 [1 / 1000000, 3]) = some 5 := by
  decide +kernel

/-- R157, the example. -/
theorem test_jnz : pcAfterStep (running (nops 6 ++ [.num 0x0A] ++ nops 1) 6 [-1, -4]) = some 3 := by decide +kernel

/-- R152: a branch not taken checks no target. -/
theorem test_jnz_not_taken : pcAfterStep (running (nops 6 ++ [.num 0x0A] ++ nops 1) 6 [0, 1 / 2]) = some 7 := by
  decide +kernel

/-- R158, the example. -/
theorem test_je : pcAfterStep (running (nops 9 ++ [.num 0x0B] ++ nops 3) 9 [7, 7, 2]) = some 12 := by decide +kernel

/-- R151: a fractional target. -/
theorem test_je_fractional_target :
    faultOfStep (running (nops 9 ++ [.num 0x0B] ++ nops 3) 9 [7, 7, 1 / 2]) = some (.illegalJumpTarget (21 / 2)) := by
  decide +kernel

/-- R159, the example: the deeper operand is the greater. -/
theorem test_jg : pcAfterStep (running (nops 10 ++ [.num 0x0C] ++ nops 2) 10 [5, 3, -3]) = some 8 := by decide +kernel

/-- R160, the example. -/
theorem test_jl : pcAfterStep (running (nops 10 ++ [.num 0x0D] ++ nops 2) 10 [3, 5, 1]) = some 12 := by decide +kernel

/-- R160: equal operands do not jump. -/
theorem test_jl_equal : pcAfterStep (running (nops 10 ++ [.num 0x0D] ++ nops 2) 10 [5, 5, 1]) = some 11 := by
  decide +kernel

/-- R162, the example. -/
theorem test_halt : nextOf (step (running [.num 0x0E, .num 0x0F] 0 [])) =
    some { running [.num 0x0E, .num 0x0F] 0 [] with pc := 1, halted := true } := by decide +kernel

/-! ### Output -/

/-- R180, the example. -/
theorem test_out : nextOf (exec .out (running (nops 2) 1 [3, 5])) =
    some { running (nops 2) 1 [3] with out := [5] } := by decide +kernel

/-! ### Arithmetic: the examples and corner cases of R192 to R196 -/

theorem test_add : stackAfter .add [2, 3] = some [5] ∧ stackAfter .add [1 / 10, 2 / 10] = some [3 / 10] := by
  decide +kernel

theorem test_sub : stackAfter .sub [3, 10] = some [-7] := by decide +kernel

theorem test_mul : stackAfter .mul [-3, 1 / 2] = some [-3 / 2] ∧
    stackAfter .mul [65536, 65536] = some [4294967296] := by decide +kernel

theorem test_div : stackAfter .div [7, 2] = some [7 / 2] ∧ stackAfter .div [-7, 2] = some [-7 / 2] := by decide +kernel

theorem test_div_by_zero : faultAfter .div [0, 0] = some (.divisionByZero 0) := by decide +kernel

theorem test_mod : stackAfter .mod [-7, 3] = some [-1] ∧ stackAfter .mod [7, -3] = some [1] ∧
    stackAfter .mod [-15 / 2, 2] = some [-3 / 2] := by decide +kernel

theorem test_mod_by_zero : faultAfter .mod [5, 0] = some (.divisionByZero 5) := by decide +kernel

/-! ### Bitwise: the examples and corner cases of R212 to R214 -/

theorem test_not : stackAfter .not [5] = some [-6] ∧ stackAfter .not [-19 / 10] = some [0] ∧
    stackAfter .not [2147483648] = some [2147483647] := by decide +kernel

theorem test_and : stackAfter .and [12, 10] = some [8] ∧ stackAfter .and [4294967301, 3] = some [1] ∧
    stackAfter .and [-6, 7] = some [2] := by decide +kernel

theorem test_or : stackAfter .or [12, 10] = some [14] ∧ stackAfter .or [2147483647, 2147483648] = some [-1] ∧
    stackAfter .or [-1 / 2, 1] = some [1] := by decide +kernel

/-! ### Witnesses: the cycle -/

theorem witness_ResetOfARomSetsEveryField :
    (State.resetWith []).halted = true ∧ (State.resetWith [.num 0x0E]).halted = false := by decide

theorem witness_HaltedStateIsLeftAsItIs : State.reset.EndOfRun := by decide

theorem witness_FaultedStateHasNoTransition :
    ({ running [] 0 [] with fault := some .stackUnderflow } : State).fault = some .stackUnderflow := by decide

theorem witness_EveryUnfaultedStateHasANextState : (running [.bad] 0 []).fault = none := by decide

/-- A one-slot instruction in the last slot, and a PUSH. -/
theorem witness_StepRunsTheDecodedInstruction :
    (running [.num 0x17] 0 []).Running ∧ Instr.wellFormed .or = true ∧
    decode ((running [.num 0x17] 0 []).rom.drop 0) = .instr .or [] ∧
    (running [.num 0, .num 0x01, .num 24] 1 []).Running ∧ Instr.wellFormed (.push 24) = true ∧
    decode ((running [.num 0, .num 0x01, .num 24] 1 []).rom.drop 1) = .instr (.push 24) [] := by decide

theorem no_opcode_is_18 : ¬∃ n : Nat, n < 24 ∧ (0x18 : Val) = n := by
  rintro ⟨n, hn, h⟩
  have : (24 : Nat) = n := by exact_mod_cast h
  omega

/-- Each clause: no slot, a bad slot, the first value past the table, PUSH in the last slot, PUSH before a bad slot. -/
theorem witness_FailedFetchOrDecodeRaisesItsFault :
    ((running [] 0 []).Running ∧ (running [] 0 []).rom.length ≤ 0) ∧
    ((running [.bad] 0 []).Running ∧ (running [.bad] 0 []).rom[0]? = some .bad) ∧
    ((running [.num 0x18] 0 []).rom[0]? = some (.num 0x18) ∧ ¬∃ n : Nat, n < 24 ∧ (0x18 : Val) = n) ∧
    ((running [.num 1] 0 []).rom[0]? = some (.num 1) ∧ 0 + 1 = (running [.num 1] 0 []).rom.length) ∧
    ((running [.num 1, .bad] 0 []).rom[0]? = some (.num 1) ∧ (running [.num 1, .bad] 0 []).rom[1]? = some .bad) :=
  ⟨⟨by decide, by decide⟩, ⟨by decide, by decide⟩, ⟨by decide, no_opcode_is_18⟩, ⟨by decide, by decide⟩,
    by decide, by decide⟩

/-- The last legal opcode, the first illegal one, and a bad slot. -/
theorem witness_IllegalOpcodesAreAllButTheTwentyFour :
    (running [.num 0x17] 0 []).Running ∧ (running [.num 0x17] 0 []).rom[0]? = some (.num 0x17) ∧
    (∃ n : Nat, n ≤ 0x17 ∧ (0x17 : Val) = n) ∧
    faultOfStep (running [.num 0x18] 0 []) = some (.illegalOpcode 0x18) ∧
    (running [.bad] 0 []).rom[0]? = some .bad :=
  ⟨by decide, by decide, ⟨23, by decide, by norm_num⟩, by decide +kernel, by decide⟩

theorem witness_FinishedRunIsFinal : drive 0 State.reset = some State.reset := by rfl

/-! ### Witnesses: encoding -/

theorem witness_DecodedSlotsAreTheInstructionsEncoding :
    decode [.num 0x01, .num (-3), .num 0x18] = .instr (.push (-3)) [.num 0x18] := by decide

/-- The second instruction of two, which runs and leads to the end of ROM. -/
theorem witness_AssembledProgramRunsAsWritten :
    (running (assemble ([.push 7] ++ .dup :: [])) 2 [7]).Running ∧
    (running (assemble ([.push 7] ++ .dup :: [])) 2 [7]).pc = (assemble [.push 7]).length ∧
    Instr.isBranch .dup = false ∧
    (nextOf (step (running (assemble ([.push 7] ++ .dup :: [])) 2 [7]))).map State.fault = some none := by
  decide +kernel

/-! ### Witnesses: stack instructions -/

theorem witness_NopChangesNothing :
    (running [.num 0x00] 0 []).Running ∧ (running [.num 0x00] 0 []).rom[0]? = some (.num 0x00) := by decide

theorem witness_PushTakesTheSlotAfterItsOpcode :
    (running [.num 0x01, .num 7] 0 []).Running ∧ (running [.num 0x01, .num 7] 0 []).rom[0]? = some (.num 0x01) ∧
    (running [.num 0x01, .num 7] 0 []).rom[1]? = some (.num 7) ∧
    (running [.num 0x01] 0 []).rom[0]? = some (.num 0x01) ∧ 0 + 1 = (running [.num 0x01] 0 []).rom.length ∧
    (running [.num 0x01, .bad] 0 []).rom[1]? = some .bad := by decide

theorem witness_DropDiscardsAndDupCopiesTheTop :
    (running [] 0 [9]).stack = [] ++ [9] ∧ (running [] 0 []).sp = 0 := by decide

theorem witness_OverCopiesAndSwapExchangesTheSecondEntry :
    (running [] 0 [4, 9]).stack = [] ++ [4, 9] ∧ (running [] 0 [4]).sp < 2 := by decide

theorem witness_DupDeepensByOneWithEqualTop : 1 ≤ (running [] 0 [9]).sp := by decide

theorem witness_SwapTwiceIsTheIdentity : 2 ≤ (running [] 0 [4, 9]).sp := by decide

/-- A SWAP of the only two entries. -/
theorem witness_EntriesBelowAreNeitherReadNorWritten :
    (nextOf (step (running [.num 0x05] 0 [4, 9]))).map State.fault = some none := by decide +kernel

/-! ### Witnesses: memory -/

theorem witness_ReadsReturnTheLatestWrite :
    Memory.wf [(0, 5), (2, -1)] ∧ (1 : Nat) ≠ 0 ∧ ∀ w ∈ [((1 : Nat), (5 : Val)), (2, 0)], w.1 ≠ 0 := by decide

theorem witness_EqualContentsAreEqualMemories :
    Memory.wf [(0, 5), (2, -1)] ∧ ∀ a, Memory.read [(0, 5), (2, -1)] a = Memory.read [(0, 5), (2, -1)] a :=
  ⟨by decide, fun _ => rfl⟩

theorem witness_LoadPushesTheCellAtItsAddress : (running [] 0 [0]).stack = [] ++ [((0 : Nat) : Val)] := by decide

theorem witness_StoreWritesOnlyTheCellAtItsAddress :
    Memory.wf (running [] 0 [0, 42]).mem ∧ (running [] 0 [0, 42]).stack = [] ++ [0, 42] ∧ address? 0 = some 0 := by
  decide

theorem no_natural_is_minus_one : ∀ a : Nat, (-1 : Val) ≠ a := by
  intro a h
  have : (0 : Val) ≤ a := Nat.cast_nonneg a
  linarith

theorem no_natural_is_a_half : ∀ a : Nat, (1 / 2 : Val) ≠ a := by
  intro a h
  have : (2 * a : Val) = 1 := by linarith
  have : 2 * a = 1 := by exact_mod_cast this
  omega

/-- A negative and a fractional address, for LOAD and for STORE. -/
theorem witness_AddressesThatAreNotNaturalFault :
    ((∀ a : Nat, (-1 : Val) ≠ a) ∧ (∀ a : Nat, (1 / 2 : Val) ≠ a)) ∧
    (running [] 0 [-1]).stack = [] ++ [-1] ∧ (running [] 0 [1 / 2, 3]).stack = [] ++ [1 / 2, 3] :=
  ⟨⟨no_natural_is_minus_one, no_natural_is_a_half⟩, by decide, rfl⟩

/-- STORE; PUSH 5; LOAD, with 5 and 42 on the stack. -/
def storeLoad : State := running [.num 0x07, .num 0x01, .num 5, .num 0x06, .num 0x0E] 0 [5, 42]

/-- After the STORE, and after the PUSH. -/
def storeLoad1 : State := { storeLoad with pc := 1, stack := [], mem := [(5, 42)] }
def storeLoad2 : State := { storeLoad with pc := 3, stack := [5], mem := [(5, 42)] }

theorem storeLoad_first : nextOf (step storeLoad) = some storeLoad1 := by decide +kernel
theorem storeLoad_second : nextOf (step storeLoad1) = some storeLoad2 := by decide +kernel

theorem next_of_nextOf {o : Host.Outcome State Fault Refusal} {t : State} (h : nextOf o = some t) : o = .next t := by
  cases o <;> simp_all [nextOf]

theorem storeLoad_decodes : decode (storeLoad.rom.drop storeLoad.pc) =
      .instr .store [.num 0x01, .num 5, .num 0x06, .num 0x0E] ∧
    decode (storeLoad1.rom.drop storeLoad1.pc) = .instr (.push 5) [.num 0x06, .num 0x0E] ∧
    decode (storeLoad2.rom.drop storeLoad2.pc) = .instr .load [.num 0x0E] := by decide

/-- The first clause; the third is met by `[-1]` and `[-1, 3]`. -/
theorem witness_LoadsSeeTheLatestStore :
    storeLoad.Running ∧ Memory.wf storeLoad.mem ∧ storeLoad.stack = [] ++ [((5 : Nat) : Val), 42] ∧
    step storeLoad = .next storeLoad1 ∧ NoStoreTo 5 storeLoad1 storeLoad2 ∧ storeLoad2.Running ∧
    storeLoad2.stack = [] ++ [((5 : Nat) : Val)] ∧ (-1 : Val) < 0 := by
  refine ⟨by decide, by decide, by decide +kernel, next_of_nextOf storeLoad_first,
    .onward (.here _) (next_of_nextOf storeLoad_second) ?_, by decide, by decide +kernel, by decide⟩
  intro rest base v h
  rw [storeLoad_decodes.2.1] at h
  cases h

/-- The second clause: PUSH 0; LOAD from reset. -/
def pushLoad : List Slot := [.num 0x01, .num 0, .num 0x06]

theorem pushLoad_first : nextOf (step (State.resetWith pushLoad)) =
    some { State.resetWith pushLoad with pc := 2, stack := [0] } := by decide +kernel

theorem witness_LoadsSeeTheLatestStore_neverWritten :
    NoStoreTo 0 (State.resetWith pushLoad) { State.resetWith pushLoad with pc := 2, stack := [0] } ∧
    decode (pushLoad.drop 2) = .instr .load [] := by
  refine ⟨.onward (.here _) (next_of_nextOf pushLoad_first) ?_, by decide⟩
  intro rest base v _ h
  simp [State.resetWith] at h

/-! ### Witnesses: control transfer -/

/-- The first slot and the last slot as targets, from `pc` 1 of two slots; the operands of each branch. -/
theorem witness_TakenBranchesJumpToTheirTarget :
    (((running (nops 2) 1 [-1]).pc : Val) + -1 = (0 : Nat) ∧ 0 < (nops 2).length) ∧
    (((running (nops 2) 1 [0]).pc : Val) + 0 = (1 : Nat) ∧ 1 < (nops 2).length) ∧
    (running (nops 2) 1 [-1]).stack = [] ++ [-1] ∧ (running (nops 2) 1 [0, -1]).stack = [] ++ [0, -1] ∧
    (running (nops 2) 1 [7, 7, 0]).stack = [] ++ [7, 7, 0] ∧ (1 : Val) ≠ 0 ∧ (2 : Val) > 1 ∧ (1 : Val) < 2 := by
  decide +kernel

/-- A fractional offset, which a branch not taken does not look at, and equal operands. -/
theorem witness_BranchesNotTakenFallThrough :
    (running (nops 2) 1 [1, 1 / 2]).stack = [] ++ [1, 1 / 2] ∧
    (running (nops 2) 1 [7, 7, 1 / 2]).stack = [] ++ [7, 7, 1 / 2] ∧ (1 : Val) ≠ 0 ∧ (7 : Val) ≤ 7 ∧ (7 : Val) ≥ 7 := by
  decide +kernel

/-- The target `LEN`, and a target just below 0. -/
theorem witness_TakenBranchOutsideRomFaults :
    (∀ n : Nat, ((running (nops 2) 1 [1]).pc : Val) + 1 = n → (nops 2).length ≤ n) ∧
    (∀ n : Nat, ((running (nops 2) 1 [-2]).pc : Val) + -2 = n → (nops 2).length ≤ n) ∧
    (running (nops 2) 1 [1]).stack = [] ++ [1] ∧ (running (nops 2) 1 [0, 1]).stack = [] ++ [0, 1] ∧
    (running (nops 2) 1 [7, 7, 1]).stack = [] ++ [7, 7, 1] := by
  refine ⟨fun n h => ?_, fun n h => ?_, by decide, by decide, by decide⟩
  · have h : ((2 : Nat) : Val) = n := by simpa [running] using (show ((1 : Nat) : Val) + 1 = n from h) ▸ by norm_num
    exact le_of_eq (by exact_mod_cast h)
  · have h : ((1 : Nat) : Val) + -2 = n := h
    exact absurd (show (-1 : Val) = n by rw [← h]; norm_num) (no_natural_is_minus_one n)

/-- The first clause at target `LEN`; a JMP to slot 0; a JZ not taken in the last slot. -/
theorem witness_NoBranchEndsARunByJumpingPastTheEnd :
    (((running (nops 2) 1 [1]).pc : Val) + 1 = (2 : Int) ∧ ((nops 2).length : Int) ≤ 2) ∧
    ((running [.num 0x08] 0 [-1]).Running ∧ decode [.num 0x08] = .instr .jmp [] ∧
      (nextOf (step (running [.num 0x08] 0 [-1]))).map State.fault = some none ∧ Taken .jmp [-1]) ∧
    ((running [.num 0x09] 0 [1, 0]).Running ∧ decode [.num 0x09] = .instr .jz [] ∧
      (nextOf (step (running [.num 0x09] 0 [1, 0]))).map State.fault = some none ∧ ¬Taken .jz [1, 0]) := by
  refine ⟨by decide +kernel, ⟨by decide, by decide, by decide +kernel, .inl rfl⟩,
    by decide, by decide, by decide +kernel, ?_⟩
  rintro (h | ⟨-, base, off, h⟩ | ⟨h, -⟩ | ⟨h, -⟩ | ⟨h, -⟩ | ⟨h, -⟩) <;> try cases h
  have := congrArg (fun l => l.reverse[1]?) h
  simp at this

theorem witness_HaltStopsTheRun :
    (running [.num 0x0E] 0 []).Running ∧ (running [.num 0x0E] 0 []).rom[0]? = some (.num 0x0E) := by decide

/-- A HALT, an instruction that leaves `pc` at the end, and one that does neither. -/
theorem witness_OnlyHaltAndTheEndCheckHalt :
    (nextOf (step (running [.num 0x0E, .num 0] 0 []))).map State.halted = some true ∧
    (nextOf (step (running [.num 0] 0 []))).map State.halted = some true ∧
    (nextOf (step (running [.num 0, .num 0] 0 []))).map State.halted = some false := by decide +kernel

/-! ### Witnesses: output -/

theorem witness_OutEmitsTheTop : (running [] 0 [5]).stack = [] ++ [5] ∧ (running [] 0 []).sp = 0 := by decide

/-- A cycle that emits and one that does not. -/
theorem witness_OutputIsAppendedToAndNeverRead :
    (nextOf (step (running [.num 0x0F] 0 [5]))).map State.out = some [5] ∧
    decode ((running [.num 0x0F] 0 [5]).rom.drop 0) = .instr .out [] ∧
    (nextOf (step (running [.num 0x0F] 0 [5]))).map State.fault = some none ∧
    (nextOf (step (running [.num 0] 0 []))).map State.out = some [] := by decide +kernel

/-! ### Witnesses: arithmetic and bitwise -/

theorem witness_AddSubMulAreExact :
    (running [] 0 [2, 3]).stack = [] ++ [2, 3] ∧ (running [] 0 [2]).sp < 2 := by decide

theorem witness_DivModByANonzeroDivisor :
    (running [] 0 [7, -2]).stack = [] ++ [7, -2] ∧ (-2 : Val) ≠ 0 := by decide

theorem witness_DivisionByZeroFaults : (running [] 0 [0, 0]).stack = [] ++ [0, 0] := by decide

theorem witness_RemainderFollowsTheDividend : (-3 : Val) ≠ 0 := by decide

/-- An operand outside the signed 32-bit range and a fractional one. -/
theorem witness_ToInt32IsTheWrappedTruncation :
    (running [] 0 [2147483648]).stack = [] ++ [2147483648] ∧
    (running [] 0 [4294967301, -1 / 2]).stack = [] ++ [4294967301, -1 / 2] := by decide +kernel

theorem witness_BitwiseResultsAreSigned32BitIntegers :
    (running [] 0 [5]).stack = [] ++ [5] ∧ (running [] 0 [12, 10]).stack = [] ++ [12, 10] := by decide

/-- Every clause, and the first and the last bit. -/
theorem witness_NotAndOrActOnTheLow32Bits :
    (running [] 0 [2147483648]).stack = [] ++ [2147483648] ∧
    (running [] 0 [12, 10]).stack = [] ++ [12, 10] ∧ (running [] 0 []).sp = 0 ∧ (running [] 0 [1]).sp < 2 ∧
    (0 : Nat) < 32 ∧ (31 : Nat) < 32 := by decide

/-! ### Witnesses: faults and status -/

/-- One entry fewer than the instruction pops. -/
theorem witness_TooFewEntriesUnderflowBeforeAnyOtherFault :
    (running [] 0 []).sp < Instr.pops .drop ∧ (running [] 0 [-1]).sp < Instr.pops .store ∧
    (running [] 0 [1, 2]).sp < Instr.pops .je := by decide

/-- Each fault that an execute stage raises, and none. -/
theorem witness_InstructionsRaiseOnlyTheirListedFaults :
    (running (nops 20) 1 []).fault = none ∧ faultAfter .drop [] = some .stackUnderflow ∧
    faultAfter .load [-1] = some (.illegalAddress (-1)) ∧ faultAfter .jmp [19] = some (.illegalJumpTarget 20) ∧
    faultAfter .mod [1, 0] = some (.divisionByZero 1) ∧ faultAfter .add [1, 2] = none := by decide +kernel

/-- A fault at the opcode fetch, and one after two pops. -/
theorem witness_FaultingCycleOnlyPops :
    faultOfStep (running [.bad] 0 []) = some (.illegalValue 0) ∧
    faultOfStep (running [.num 0x13] 0 [4, 0]) = some (.divisionByZero 4) := by decide +kernel

theorem witness_StatusReportsHaltAndFault :
    ((running [] 0 []).fault = none ∧ (running [] 0 []).halted = false) ∧
    (State.reset.fault = none ∧ State.reset.halted = true) ∧
    ({ running [] 0 [] with fault := some (.divisionByZero 4) } : State).fault = some (.divisionByZero 4) := by decide

theorem inv_of_running_pushLast : (running [.num 0x00, .num 0x01] 1 []).Inv :=
  ⟨by decide, by decide, by decide, by decide⟩

theorem witness_OnlyALastPushFetchesOutOfRange :
    (running [.num 0x00, .num 0x01] 1 []).Inv ∧
    faultOfStep (running [.num 0x00, .num 0x01] 1 []) = some (.fetchOutOfRange 2) :=
  ⟨inv_of_running_pushLast, by decide +kernel⟩

/-! ### Witnesses: the whole machine -/

theorem witness_CompletedInstructionsObeyTheirArity :
    stackAfter .overOp [4, 9] = some [4, 9, 4] ∧ stackAfter .nop [] = some [] := by decide +kernel

/-- A STORE that completes, and one that underflows. -/
theorem witness_OnlyTheListedStateIsWritten :
    stackAfter .store [5, 42] = some [] ∧ (running (nops 20) 1 [42]).sp < 2 ∧
    Memory.wf (running (nops 20) 1 [5, 42]).mem ∧ (running (nops 20) 1 [5, 42]).stack = [] ++ [5, 42] ∧
    address? 5 ≠ some 4 := by decide +kernel

theorem witness_RomStaysAsSupplied :
    Reachable pushLoad (State.resetWith pushLoad) ∧
    fetch (State.resetWith pushLoad) = .done 0x01 ((State.resetWith pushLoad).setPc 1) :=
  ⟨.atReset, rfl⟩

/-- A step that keeps the invariant and one that ends at `LEN`. -/
theorem witness_EveryStepKeepsTheInvariant :
    (running [.num 0x00, .num 0x01] 1 []).Inv ∧ (State.resetWith [.num 0x0E]).Inv ∧
    (nextOf (step (State.resetWith [.num 0x0E]))).map State.pc = some 1 :=
  ⟨inv_of_running_pushLast, ⟨by decide, by decide, by decide, by decide⟩, by decide +kernel⟩

end Sys2Proof.Tests
end

/-! ### Proofs: the output sink (R32)

The whole machine, except the emit of OUT, commutes with replacing the sink's contents: every micro-operation and both
combinators do, so every instruction but OUT does, and with the one emit of OUT written out, so does the step. -/

namespace Sys2Proof.Machine

/-- A state with other contents of its output sink. -/
def State.withOut (sink : List Val) (s : State) : State :=
  { s with out := sink }

/-- A micro-operation's answer with other contents of the output sink in its state. -/
def Micro.withOut {α : Type} (sink : List Val) : Micro α → Micro α
  | .done a s => .done a (s.withOut sink)
  | .raised s => .raised (s.withOut sink)

/-- A micro-operation that neither reads nor writes the sink: it answers the same whatever the sink holds, and leaves
the sink as it found it. -/
def SinkBlind {α : Type} (m : State → Micro α) : Prop :=
  ∀ (sink : List Val) (s : State), m (s.withOut sink) = (m s).withOut sink

@[simp] theorem State.withOut_out (sink : List Val) (s : State) : (s.withOut sink).out = sink := rfl

/-! Micro-operations -/

theorem SinkBlind.andThen {α β : Type} {m : State → Micro α} {k : α → State → Micro β} (hm : SinkBlind m)
    (hk : ∀ a, SinkBlind (k a)) : SinkBlind fun s => (m s).andThen k := by
  intro sink s
  simp only [hm sink s]
  cases m s with
  | done a u => exact hk a sink u
  | raised u => rfl

theorem sinkBlind_results (rs : List Val) : SinkBlind (results rs) := fun _ _ => rfl

theorem sinkBlind_pushResults (rs : List Val) : SinkBlind (pushResults rs) := fun _ _ => rfl

theorem sinkBlind_pop : SinkBlind pop := by
  intro sink s
  rcases pop_cases s with ⟨h, e⟩ | ⟨base, v, h, e⟩
  · rw [e, pop_empty (s := s.withOut sink) h]
    rfl
  · rw [e, pop_concat (s := s.withOut sink) h]
    rfl

theorem sinkBlind_addr (w : Val) : SinkBlind (addr w) := by
  intro sink s
  unfold addr
  cases address? w <;> rfl

theorem sinkBlind_readSlot : SinkBlind readSlot := by
  intro sink s
  cases e : s.rom[s.pc]? with
  | none =>
    rw [readSlot_end e, readSlot_end (s := s.withOut sink) e]
    rfl
  | some slot =>
    cases slot with
    | bad =>
      rw [readSlot_bad e, readSlot_bad (s := s.withOut sink) e]
      rfl
    | num v =>
      rw [readSlot_num e, readSlot_num (s := s.withOut sink) e]
      rfl

theorem sinkBlind_decodeKind (v : Val) : SinkBlind (decodeKind v) := by
  intro sink s
  unfold decodeKind
  cases decodeOpcode v <;> rfl

theorem sinkBlind_completeKind (k : Kind) : SinkBlind (completeKind k) := by
  cases k with
  | s1 i => exact fun _ _ => rfl
  | s2Push => exact sinkBlind_readSlot.andThen fun _ _ _ => rfl

theorem sinkBlind_fetchInstr : SinkBlind fetchInstr :=
  (sinkBlind_readSlot.andThen fun _ _ _ => rfl).andThen fun v => (sinkBlind_decodeKind v).andThen sinkBlind_completeKind

/-! The combinators -/

theorem sinkBlind_operate1 {f : Val → State → Micro (List Val)} (hf : ∀ a, SinkBlind (f a)) :
    SinkBlind (operate1 f) :=
  sinkBlind_pop.andThen fun a => (hf a).andThen sinkBlind_pushResults

theorem sinkBlind_operate2 {f : Val → Val → State → Micro (List Val)} (hf : ∀ a b, SinkBlind (f a b)) :
    SinkBlind (operate2 f) :=
  sinkBlind_pop.andThen fun b => sinkBlind_pop.andThen fun a => (hf a b).andThen sinkBlind_pushResults

theorem sinkBlind_divided (f : Val → Val → Val) (a b : Val) : SinkBlind (divided f a b) := by
  intro sink s
  unfold divided
  split <;> rfl

theorem sinkBlind_branchTo (taken : Bool) (off : Val) : SinkBlind (branchTo taken off) := by
  intro sink s
  cases taken with
  | false => rfl
  | true =>
    cases e : jumpTarget? ((s.pc : Val) + off) s.len with
    | none =>
      have hn := jumpTarget?_eq_none.mp e
      rw [branchTo_illegal hn, branchTo_illegal (s := s.withOut sink) hn]
      rfl
    | some n =>
      obtain ⟨hv, hn⟩ := jumpTarget?_eq_some.mp e
      rw [branchTo_target hv hn, branchTo_target (s := s.withOut sink) hv hn]
      rfl

theorem sinkBlind_branch0 (taken : Bool) : SinkBlind (branch0 taken) :=
  sinkBlind_pop.andThen fun off => sinkBlind_branchTo taken off

theorem sinkBlind_branch1 (cond : Val → Bool) : SinkBlind (branch1 cond) :=
  sinkBlind_pop.andThen fun off => sinkBlind_pop.andThen fun a => sinkBlind_branchTo (cond a) off

theorem sinkBlind_branch2 (cond : Val → Val → Bool) : SinkBlind (branch2 cond) :=
  sinkBlind_pop.andThen fun off => sinkBlind_pop.andThen fun b => sinkBlind_pop.andThen fun a =>
    sinkBlind_branchTo (cond a b) off

/-! Instructions -/

/-- The next state of a sink-blind instruction, for any contents of the sink. -/
theorem SinkBlind.outcome_withOut {m : State → Micro Unit} (hm : SinkBlind m) {s t : State}
    (h : (m s).outcome = .next t) (sink : List Val) : (m (s.withOut sink)).outcome = .next (t.withOut sink) := by
  rw [hm sink s]
  cases e : m s with
  | done u v | raised v =>
    obtain rfl : v = t := by simpa [e] using h
    rfl

/-- Every instruction but OUT leaves the sink alone and answers the same whatever it holds. -/
theorem exec_withOut_of_ne_out {i : Instr} (hi : i ≠ .out) {s t : State} (h : exec i s = .next t) (sink : List Val) :
    exec i (s.withOut sink) = .next (t.withOut sink) := by
  cases i with
  | out => exact absurd rfl hi
  | halt =>
    obtain rfl : s.setHalted = t := by simpa [exec, execHalt] using h
    rfl
  | nop => exact ((sinkBlind_results []).andThen sinkBlind_pushResults).outcome_withOut h sink
  | push imm =>
    have hm : SinkBlind fun s => pushResults [imm] (s.setPc (s.pc + 1)) := fun _ _ => rfl
    exact hm.outcome_withOut h sink
  | drop | dup | not => exact (sinkBlind_operate1 fun _ => sinkBlind_results _).outcome_withOut h sink
  | overOp | swap | add | sub | mul | and | or =>
    exact (sinkBlind_operate2 fun _ _ => sinkBlind_results _).outcome_withOut h sink
  | div | mod => exact (sinkBlind_operate2 (sinkBlind_divided _)).outcome_withOut h sink
  | load => exact (sinkBlind_operate1 fun w => (sinkBlind_addr w).andThen fun _ _ _ => rfl).outcome_withOut h sink
  | store => exact (sinkBlind_operate2 fun w _ => (sinkBlind_addr w).andThen fun _ _ _ => rfl).outcome_withOut h sink
  | jmp => exact (sinkBlind_branch0 _).outcome_withOut h sink
  | jz | jnz => exact (sinkBlind_branch1 _).outcome_withOut h sink
  | je | jg | jl => exact (sinkBlind_branch2 _).outcome_withOut h sink

/-- OUT on an empty stack (R180). -/
theorem exec_out_empty {s : State} (h : s.stack = []) : exec .out s = .next (s.raise .stackUnderflow) := by
  rw [exec, execOut, operate1_empty _ h, outcome_raise]

/-- OUT with an entry to pop (R180). -/
theorem exec_out_concat {s : State} {base : List Val} {a : Val} (h : s.stack = base ++ [a]) :
    exec .out s = .next { s with stack := base, out := s.out ++ [a] } := by
  rw [exec, execOut, operate1_concat _ h]
  simp [State.emit, pushAll]

/-- `emitted` is what the instruction `i` appends to the sink on the way to `t`: at most one value, none unless `i` is
OUT, and one when an OUT completes. -/
structure EmittedBy (i : Instr) (t : State) (emitted : List Val) : Prop where
  atMostOne : emitted.length ≤ 1
  onlyOut : emitted ≠ [] → i = .out
  outEmits : i = .out → t.fault = none → emitted.length = 1

/-- What an instruction appends to the sink, and the rest of its next state, are the same whatever the sink holds. -/
theorem exec_emits {i : Instr} {s t : State} (h : exec i s = .next t) :
    ∃ emitted, EmittedBy i t emitted ∧
      ∀ sink, exec i (s.withOut sink) = .next (t.withOut (sink ++ emitted)) := by
  by_cases hi : i = .out
  · subst hi
    rcases pop_cases s with ⟨h0, -⟩ | ⟨base, a, h1, -⟩
    · obtain rfl : s.raise .stackUnderflow = t := by simpa [exec_out_empty h0] using h
      refine ⟨[], ⟨by simp, by simp, fun _ hf => absurd hf (by simp)⟩, fun sink => ?_⟩
      rw [exec_out_empty (s := s.withOut sink) h0, List.append_nil]
      rfl
    · obtain rfl : ({ s with stack := base, out := s.out ++ [a] } : State) = t := by
        simpa [exec_out_concat h1] using h
      exact ⟨[a], ⟨le_rfl, fun _ => rfl, fun _ _ => rfl⟩, fun sink => exec_out_concat (s := s.withOut sink) h1⟩
  · refine ⟨[], ⟨by simp, by simp, fun ho => absurd ho hi⟩, fun sink => ?_⟩
    rw [List.append_nil]
    exact exec_withOut_of_ne_out hi h sink

/-! The cycle -/

theorem endCheck_withOut (sink : List Val) (s : State) : endCheck (s.withOut sink) = (endCheck s).withOut sink := by
  unfold endCheck
  rw [apply_ite (State.withOut sink)]
  rfl

theorem step_of_halted {s : State} (hf : s.fault = none) (hh : s.halted = true) : step s = .next s := by
  simp [step, hf, hh]

theorem step_of_fetch_raised {s t : State} (hr : s.Running) (e : fetchInstr s = .raised t) : step s = .next t := by
  rw [step_running hr, e]

theorem step_of_exec_next {s t u : State} {i : Instr} (hr : s.Running) (e : fetchInstr s = .done i t)
    (h : exec i t = .next u) : step s = .next (endCheck u) := by
  rw [step_running hr, e]
  exact congrArg endCycle h

/-- A failed fetch or decode leaves a fault. -/
theorem fault_of_fetchInstr_raised {s t : State} (h : fetchInstr s = .raised t) : t.fault ≠ none := by
  rcases fetchInstr_raised h with ⟨-, rfl⟩ | ⟨-, rfl⟩ | ⟨v, -, -, rfl⟩ | ⟨v, -, -, -, rfl⟩ | ⟨v, -, -, -, rfl⟩ <;>
    simp

/-- What a step appends to the sink, by the instruction that the slots at `pc` decode to. -/
structure StepEmits (s t : State) (emitted : List Val) : Prop where
  atMostOne : emitted.length ≤ 1
  onlyOut : emitted ≠ [] → ∃ rest, decode (s.rom.drop s.pc) = .instr .out rest
  outEmits : ∀ rest, s.halted = false → decode (s.rom.drop s.pc) = .instr .out rest → t.fault = none →
    emitted.length = 1
  anySink : ∀ sink, step (s.withOut sink) = .next (t.withOut (sink ++ emitted))

theorem step_emits {s t : State} (h : step s = .next t) : ∃ emitted, StepEmits s t emitted := by
  obtain ⟨hf, ⟨hh, rfl⟩ | ⟨hh, e | ⟨i, u, e, x, rfl⟩⟩⟩ := step_cases h
  · refine ⟨[], by simp, by simp, fun _ hr => by simp [hh] at hr, fun sink => ?_⟩
    rw [List.append_nil]
    exact step_of_halted hf hh
  · refine ⟨[], by simp, by simp, fun _ _ _ ht => absurd ht (fault_of_fetchInstr_raised e), fun sink => ?_⟩
    rw [List.append_nil]
    exact step_of_fetch_raised ⟨hh, hf⟩ (by rw [sinkBlind_fetchInstr sink s, e]; rfl)
  · obtain ⟨-, -, ⟨rest, hd⟩, -⟩ := fetchInstr_done e
    obtain ⟨emitted, hem, hx⟩ := exec_emits x
    refine ⟨emitted, hem.atMostOne, fun hne => ⟨rest, hem.onlyOut hne ▸ hd⟩, fun rest' _ hd' ht => ?_,
      fun sink => ?_⟩
    · have hi : i = .out := by
        rw [hd] at hd'
        injection hd'
      exact hem.outEmits hi (by simpa using ht)
    · rw [← endCheck_withOut]
      exact step_of_exec_next ⟨hh, hf⟩ (by rw [sinkBlind_fetchInstr sink s, e]; rfl) (hx sink)

/-- What a step appends, at the contents that the sink has. -/
theorem StepEmits.out_eq {s t : State} {emitted : List Val} (he : StepEmits s t emitted) (h : step s = .next t) :
    t.out = s.out ++ emitted := by
  have hs : step s = .next (t.withOut (s.out ++ emitted)) := he.anySink s.out
  rw [h, Host.Outcome.next.injEq] at hs
  simpa using congrArg State.out hs

/-- Settles O35: the step commutes with replacing the sink's contents, up to the one value of an OUT (`step_emits`). -/
theorem outputIsAppendedToAndNeverRead : Obligations.OutputIsAppendedToAndNeverRead := by
  refine ⟨State.resetWith_out, fun s t h => ?_⟩
  obtain ⟨emitted, he⟩ := step_emits h
  exact ⟨emitted, he.atMostOne, he.out_eq h, he.onlyOut, he.outEmits, he.anySink⟩

end Sys2Proof.Machine

/-! ### Proofs: memory and ROM (R55, R56, R64)

RAM: a list of writes to other addresses does not change what an address reads as. ROM: no instruction, no failed fetch
and no end check writes it. -/

namespace Sys2Proof.Machine

/-! RAM -/

/-- The memory after a list of writes of a value to an address, the first one done first. -/
def Memory.writeAll (m : Memory) (writes : List (Nat × Val)) : Memory :=
  writes.foldl (fun m w => Memory.write m w.1 w.2) m

theorem Memory.read_write_same {m : Memory} (hm : Memory.wf m) (a : Nat) (v : Val) :
    Memory.read (Memory.write m a v) a = v := by
  rw [Memory.read_write hm, if_pos rfl]

theorem Memory.read_write_of_ne {m : Memory} (hm : Memory.wf m) {a b : Nat} (v : Val) (h : b ≠ a) :
    Memory.read (Memory.write m a v) b = Memory.read m b := by
  rw [Memory.read_write hm, if_neg h]

/-- Writes to other addresses leave what an address reads as, in a canonical memory. -/
theorem Memory.read_writeAll_of_ne {m : Memory} (hm : Memory.wf m) {a : Nat} {writes : List (Nat × Val)}
    (h : ∀ w ∈ writes, w.1 ≠ a) : Memory.read (Memory.writeAll m writes) a = Memory.read m a := by
  induction writes generalizing m with
  | nil => rfl
  | cons w ws ih =>
    obtain ⟨hw, hws⟩ := List.forall_mem_cons.mp h
    calc Memory.read (Memory.writeAll (Memory.write m w.1 w.2) ws) a
        = Memory.read (Memory.write m w.1 w.2) a := ih (Memory.wf_write hm w.1 w.2) hws
      _ = Memory.read m a := Memory.read_write_of_ne hm w.2 hw.symm

/-- Settles O22: one write by `Memory.read_write`, the writes after it by induction on their list
(`Memory.read_writeAll_of_ne`). -/
theorem readsReturnTheLatestWrite : Obligations.ReadsReturnTheLatestWrite := by
  refine ⟨fun m a b v hm hb => Memory.read_write_of_ne hm v hb, fun m a v others hm ho => ?_, fun a others ho => ?_⟩
  · exact (Memory.read_writeAll_of_ne (Memory.wf_write hm a v) ho).trans (Memory.read_write_same hm a v)
  · exact (Memory.read_writeAll_of_ne Memory.wf_nil ho).trans (Memory.read_nil a)

/-! ROM -/

/-- The one way to read a slot: it is there, it is a number, and the state stays. -/
theorem readSlot_eq_done {s u : State} {v : Val} :
    readSlot s = .done v u ↔ s.rom[s.pc]? = some (.num v) ∧ u = s := by
  cases e : s.rom[s.pc]? with
  | none => simp [readSlot_end e, raise]
  | some slot =>
    cases slot with
    | bad => simp [readSlot_bad e, raise]
    | num w => simp [readSlot_num e, eq_comm]

/-- The one way a fetch succeeds (R82). -/
theorem fetch_eq_done {s u : State} {v : Val} :
    fetch s = .done v u ↔ s.rom[s.pc]? = some (.num v) ∧ u = s.setPc (s.pc + 1) := by
  simp only [fetch, Micro.andThen_eq_done, readSlot_eq_done, Micro.done.injEq]
  constructor
  · rintro ⟨_, _, ⟨hslot, rfl⟩, rfl, rfl⟩
    exact ⟨hslot, rfl⟩
  · rintro ⟨hslot, rfl⟩
    exact ⟨v, s, ⟨hslot, rfl⟩, rfl, rfl⟩

theorem exec_rom {i : Instr} {s t : State} (h : exec i s = .next t) : t.rom = s.rom := by
  cases exec_effect h with
  | underflow _ left => rw [left, State.raise_rom]
  | raised _ _ _ _ _ _ left => rw [left, State.raise_rom]
  | completed _ _ _ _ left => exact left.rom

theorem fetchInstr_raised_rom {s t : State} (h : fetchInstr s = .raised t) : t.rom = s.rom := by
  rcases fetchInstr_raised h with ⟨-, rfl⟩ | ⟨-, rfl⟩ | ⟨v, -, -, rfl⟩ | ⟨v, -, -, -, rfl⟩ | ⟨v, -, -, -, rfl⟩ <;> rfl

theorem step_rom {s t : State} (h : step s = .next t) : t.rom = s.rom := by
  obtain ⟨-, ⟨-, rfl⟩ | ⟨-, e | ⟨i, u, -, x, rfl⟩⟩⟩ := step_cases h
  · rfl
  · exact fetchInstr_raised_rom e
  · rw [endCheck_rom, exec_rom x, State.setPc_rom]

theorem Reachable.rom_eq {rom : List Slot} {s : State} (h : Reachable rom s) : s.rom = rom :=
  h.induct (State.resetWith_rom rom) fun _ _ hs cycle => (step_rom cycle).trans hs

/-- Settles O50: ROM is an invariant of the step (`step_rom`), so Fetch reads the slot of the ROM supplied. -/
theorem romStaysAsSupplied : Obligations.RomStaysAsSupplied := by
  refine ⟨fun s t => step_rom, fun rom s => Reachable.rom_eq, fun rom s u v hr hf => ?_⟩
  obtain ⟨hslot, -⟩ := fetch_eq_done.mp hf
  rwa [hr.rom_eq] at hslot

end Sys2Proof.Machine

/-! ### Proofs: NOP and the stack instructions (R120, R122, R123, R126 to R128)

One equation per instruction at `exec`, by the shape of the stack it finds; the stack laws are read off them. -/

namespace Sys2Proof.Machine

/-! NOP -/

/-- A one-slot opcode at `pc` is fetched and decoded as its instruction (R82, R84). -/
theorem fetchInstr_s1 {s : State} {v : Val} {i : Instr} (hslot : s.rom[s.pc]? = some (.num v))
    (hd : decodeOpcode v = some (.s1 i)) : fetchInstr s = .done i (s.setPc (s.pc + 1)) := by
  rw [fetchInstr, fetch_eq_done.mpr ⟨hslot, rfl⟩, Micro.andThen_done, decodeKind, hd]
  rfl

/-- The end check of a running state whose `pc` has not passed the end of ROM halts exactly at the end. -/
theorem endCheck_of_running {s : State} (hr : s.Running) (hp : s.pc ≤ s.len) :
    endCheck s = { s with halted := decide (s.rom.length = s.pc) } := by
  obtain ⟨hh, hf⟩ := hr
  rcases hp.lt_or_eq with hlt | heq
  · have hne : ¬s.rom.length = s.pc := hlt.ne'
    rw [endCheck_inside hlt, decide_eq_false hne, ← hh]
  · have hend : s.rom.length = s.pc := heq.symm
    rw [endCheck_halts hf heq.ge, decide_eq_true hend, State.setHalted]

theorem decodeOpcode_zero : decodeOpcode 0x00 = some (.s1 .nop) :=
  decodeOpcode_natCast 0

theorem exec_nop (s : State) : exec .nop s = .next s := by
  rw [exec, execNop, operate0_eq]
  simp [pushAll]

/-- Settles O14: the cycle is the fetch of the NOP's slot, `exec_nop` and the end check. -/
theorem nopChangesNothing : Obligations.NopChangesNothing := by
  refine ⟨by simp [encode, Instr.opcode, Instr.literals], exec_nop, fun s hr hslot => ?_⟩
  have hlt : s.pc < s.len := (List.getElem?_eq_some_iff.mp hslot).1
  rw [step_of_exec_next hr (fetchInstr_s1 hslot decodeOpcode_zero) (exec_nop _),
    endCheck_of_running (s := s.setPc (s.pc + 1)) hr hlt]
  rfl

/-! DROP and DUP -/

theorem exec_drop_concat {s : State} {base : List Val} {a : Val} (h : s.stack = base ++ [a]) :
    exec .drop s = .next { s with stack := base } := by
  rw [exec, execDrop, operate1_concat _ h]
  simp [pushAll]

theorem exec_dup_concat {s : State} {base : List Val} {a : Val} (h : s.stack = base ++ [a]) :
    exec .dup s = .next { s with stack := base ++ [a, a] } := by
  rw [exec, execDup, operate1_concat _ h]
  rfl

theorem exec_drop_empty {s : State} (h : s.stack = []) : exec .drop s = .next (s.raise .stackUnderflow) := by
  rw [exec, execDrop, operate1_empty _ h, outcome_raise]

theorem exec_dup_empty {s : State} (h : s.stack = []) : exec .dup s = .next (s.raise .stackUnderflow) := by
  rw [exec, execDup, operate1_empty _ h, outcome_raise]

theorem stack_eq_nil_of_sp_eq_zero {s : State} (h : s.sp = 0) : s.stack = [] :=
  List.length_eq_zero_iff.mp h

/-- Settles O16: the equations of DROP and DUP on a stack with a top and on an empty one. -/
theorem dropDiscardsAndDupCopiesTheTop : Obligations.DropDiscardsAndDupCopiesTheTop := by
  refine ⟨by simp [encode, Instr.opcode, Instr.literals], by simp [encode, Instr.opcode, Instr.literals],
    fun s => ⟨fun base a h => ?_, fun h => ?_⟩⟩
  · exact ⟨exec_drop_concat h, exec_dup_concat h⟩
  · have hnil := stack_eq_nil_of_sp_eq_zero h
    exact ⟨exec_drop_empty hnil, exec_dup_empty hnil⟩

/-! The laws of Push and Pop, DUP and SWAP -/

/-- Settles O18: `pop_push`, for each of the two values. -/
theorem popReturnsTheLastValuePushed : Obligations.PopReturnsTheLastValuePushed :=
  fun s a b => ⟨pop_push b (s.push a), pop_push a s⟩

/-- Settles O19: a stack of at least one entry has a top, which DUP copies (`exec_dup_concat`). -/
theorem dupDeepensByOneWithEqualTop : Obligations.DupDeepensByOneWithEqualTop := by
  intro s h
  obtain ⟨base, a, hs⟩ := top_one h
  refine ⟨_, exec_dup_concat hs, ?_, base, a, rfl⟩
  simp [State.sp_eq, hs]

theorem exec_swap_concat {s : State} {base : List Val} {a b : Val} (h : s.stack = base ++ [a, b]) :
    exec .swap s = .next { s with stack := base ++ [b, a] } := by
  rw [exec, execSwap, operate2_concat _ h]
  rfl

/-- Settles O20: a stack of at least two entries is `base ++ [a, b]`, and SWAP (`exec_swap_concat`) gives
`base ++ [b, a]` and then `base ++ [a, b]` again. -/
theorem swapTwiceIsTheIdentity : Obligations.SwapTwiceIsTheIdentity := by
  intro s h
  obtain ⟨base, a, b, hs⟩ := top_two h
  refine ⟨_, exec_swap_concat hs, ?_, ?_⟩
  · rw [exec_swap_concat rfl, ← hs]
  · have hbelow : s.sp - 2 = base.length := by simp [State.sp_eq, hs]
    rw [hbelow, hs, List.take_left, List.take_left]

end Sys2Proof.Machine

/-! ### Proofs: HALT and the run driver (R162, R273) -/

namespace Sys2Proof.Machine

/-! The run driver -/

/-- The run driver requests no cycle of a state that is not running (R273). -/
theorem drive_of_not_running {s : State} (h : s.isRunning = false) (bound : Nat) : drive bound s = some s := by
  cases bound <;> simp [drive, h]

/-- The run driver goes on from the next state of a running one (R273). -/
theorem drive_succ_of_step {s t : State} (hr : s.Running) (h : step s = .next t) (bound : Nat) :
    drive (bound + 1) s = drive bound t := by
  obtain ⟨hh, hf⟩ := hr
  simp [drive, State.isRunning, hh, hf, h]

/-! HALT -/

theorem decodeOpcode_halt : decodeOpcode 0x0E = some (.s1 .halt) :=
  decodeOpcode_natCast 0x0E

theorem exec_halt (s : State) : exec .halt s = .next { s with halted := true } := rfl

/-- The cycle of a HALT is the fetch of its slot and `exec_halt`: the end check leaves a halted state as it is. -/
theorem step_halt {s : State} (hr : s.Running) (hslot : s.rom[s.pc]? = some (.num 0x0E)) :
    step s = .next { s with pc := s.pc + 1, halted := true } := by
  rw [step_of_exec_next hr (fetchInstr_s1 hslot decodeOpcode_halt) (exec_halt _), endCheck_halted rfl]
  rfl

/-- Settles O32: after the cycle of the HALT (`step_halt`) the driver finds a halted state, which it returns. -/
theorem haltStopsTheRun : Obligations.HaltStopsTheRun := by
  refine ⟨by simp [encode, Instr.opcode, Instr.literals], exec_halt, fun s hr hslot => ?_⟩
  have hstep := step_halt hr hslot
  refine ⟨hstep, fun bound => ?_⟩
  rw [drive_succ_of_step hr hstep, drive_of_not_running rfl]

end Sys2Proof.Machine

/-! ### Proofs: OUT (R180) -/

namespace Sys2Proof.Machine

/-- Settles O34: the equations of OUT on a stack with a top and on an empty one. -/
theorem outEmitsTheTop : Obligations.OutEmitsTheTop := by
  refine ⟨by simp [encode, Instr.opcode, Instr.literals], fun s => ⟨fun base a h => ?_, fun h => ?_⟩⟩
  · exact exec_out_concat h
  · exact exec_out_empty (stack_eq_nil_of_sp_eq_zero h)

end Sys2Proof.Machine

/-! ### Proofs: ADD, SUB and MUL, and the truncating remainder (R192 to R194, R197)

The remainder is the divisor times the fractional part that truncation cuts off the quotient. That part has the
quotient's sign and is below 1 in magnitude. -/

namespace Sys2Proof.Machine

/-! The remainder -/

/-- The model's `trunc` is the specification's rounding toward zero. -/
theorem trunc_eq_towardZero (q : Val) : trunc q = SpecForm.towardZero q := by
  unfold SpecForm.towardZero
  split
  next h => exact trunc_of_nonneg h
  next h => exact trunc_of_nonpos (le_of_not_ge h)

/-- What truncation cuts off is smaller than 1 in magnitude. -/
theorem abs_sub_trunc_lt_one (q : Val) : |q - (trunc q : Val)| < 1 := by
  rcases le_total 0 q with h | h
  · rw [trunc_of_nonneg h, abs_of_nonneg (sub_nonneg.mpr (Int.floor_le q))]
    exact sub_lt_comm.mp (Int.sub_one_lt_floor q)
  · rw [trunc_of_nonpos h, abs_sub_comm, abs_of_nonneg (sub_nonneg.mpr (Int.le_ceil q))]
    exact sub_lt_iff_lt_add'.mpr (Int.ceil_lt_add_one q)

/-- What truncation cuts off, unless it is 0, has the sign of the value truncated. -/
theorem mul_sub_trunc_pos {q : Val} (hne : q - (trunc q : Val) ≠ 0) : 0 < q * (q - (trunc q : Val)) := by
  have hq : q ≠ 0 := by
    rintro rfl
    exact hne (by simp [trunc])
  refine lt_of_le_of_ne ?_ (mul_ne_zero hq hne).symm
  rcases le_total 0 q with h | h
  · rw [trunc_of_nonneg h]
    exact mul_nonneg h (sub_nonneg.mpr (Int.floor_le q))
  · rw [trunc_of_nonpos h]
    exact mul_nonneg_of_nonpos_of_nonpos h (sub_nonpos.mpr (Int.le_ceil q))

/-- The remainder is the divisor times what truncation cuts off the quotient. -/
theorem rem_eq_mul_sub_trunc (a : Val) {b : Val} (hb : b ≠ 0) : rem a b = b * (a / b - (trunc (a / b) : Val)) := by
  rw [rem, mul_sub, mul_div_cancel₀ a hb]

theorem abs_rem_lt (a : Val) {b : Val} (hb : b ≠ 0) : |rem a b| < |b| := by
  rw [rem_eq_mul_sub_trunc a hb, abs_mul]
  exact mul_lt_of_lt_one_right (abs_pos.mpr hb) (abs_sub_trunc_lt_one _)

/-- A nonzero remainder has the sign of the dividend: their product is `b ^ 2` times that of the quotient and what
truncation cuts off it. -/
theorem mul_rem_pos {a b : Val} (hb : b ≠ 0) (hr : rem a b ≠ 0) : 0 < a * rem a b := by
  have hprod : a * rem a b = b ^ 2 * (a / b * (a / b - (trunc (a / b) : Val))) := by
    rw [rem_eq_mul_sub_trunc a hb]
    field_simp
  rw [rem_eq_mul_sub_trunc a hb] at hr
  rw [hprod]
  exact mul_pos (by positivity) (mul_sub_trunc_pos (right_ne_zero_of_mul hr))

/-- Settles O39: `trunc_eq_towardZero`; the sign by `mul_rem_pos` and the magnitude by `abs_rem_lt`. -/
theorem remainderFollowsTheDividend : Obligations.RemainderFollowsTheDividend := by
  refine ⟨trunc_eq_towardZero, fun a b hb => ⟨rfl, ?_, abs_rem_lt a hb⟩⟩
  by_cases hr : rem a b = 0
  · exact .inl hr
  · exact .inr (mul_pos_iff.mp (mul_rem_pos hb hr))

/-! ADD, SUB and MUL -/

/-- A two-operand instruction that only computes replaces its operands by its results (R92). -/
theorem operate2_results_concat {s : State} {base : List Val} {a b : Val} (f : Val → Val → List Val)
    (h : s.stack = base ++ [a, b]) :
    (operate2 (fun a b => results (f a b)) s).outcome = .next { s with stack := base ++ f a b } := by
  rw [operate2_concat _ h]
  rfl

theorem exec_add_concat {s : State} {base : List Val} {a b : Val} (h : s.stack = base ++ [a, b]) :
    exec .add s = .next { s with stack := base ++ [a + b] } :=
  operate2_results_concat (fun a b => [a + b]) h

theorem exec_sub_concat {s : State} {base : List Val} {a b : Val} (h : s.stack = base ++ [a, b]) :
    exec .sub s = .next { s with stack := base ++ [a - b] } :=
  operate2_results_concat (fun a b => [a - b]) h

theorem exec_mul_concat {s : State} {base : List Val} {a b : Val} (h : s.stack = base ++ [a, b]) :
    exec .mul s = .next { s with stack := base ++ [a * b] } :=
  operate2_results_concat (fun a b => [a * b]) h

/-- A two-operand instruction on fewer than two entries ends with StackUnderflow (R92). -/
theorem operate2_short_outcome {s : State} (f : Val → Val → State → Micro (List Val)) (h : s.sp < 2) :
    (operate2 f s).outcome = .next (State.raise .stackUnderflow { s with stack := [] }) := by
  rw [operate2_short f h, outcome_raise]

/-- Settles O36: the equation of each of the three on two operands, and `operate2_short_outcome` on fewer. -/
theorem addSubMulAreExact : Obligations.AddSubMulAreExact := by
  refine ⟨by simp [encode, Instr.opcode, Instr.literals], by simp [encode, Instr.opcode, Instr.literals],
    by simp [encode, Instr.opcode, Instr.literals], fun s => ⟨fun base a b h => ?_, fun h i hi => ?_⟩⟩
  · exact ⟨exec_add_concat h, exec_sub_concat h, exec_mul_concat h⟩
  · rcases hi with rfl | rfl | rfl <;> exact ⟨_, operate2_short_outcome _ h, State.raise_fault _ _⟩

end Sys2Proof.Machine

/-! ### Proofs: NOT, AND and OR (R210 to R215)

Each of the three replaces its operands by the signed reading of a 32-bit word. That reading agrees modulo 2^32 with the
word's unsigned one, and `ToInt32(v)` with `trunc(v)`; the low 32 bits of an integer are the same for all integers that
agree modulo 2^32, so the bits of a result are those of the truncated operands, combined. -/

namespace Sys2Proof.Machine

open SpecForm

/-! `ToInt32` -/

/-- The upper end of the signed range (R211); the lower one is `BitVec.le_toInt`. -/
theorem word32_toInt_le (w : BitVec 32) : w.toInt ≤ 2 ^ 31 - 1 :=
  Int.le_sub_one_of_lt w.toInt_lt

/-- The signed reading of a 32-bit word, from its unsigned one (R210). -/
theorem word32_toInt_eq_signed32 {w : BitVec 32} {t : Int} (h : (w.toNat : Int) = t % 2 ^ 32) :
    w.toInt = signed32 t := by
  rw [BitVec.toInt_eq_toNat_cond, signed32, ← h]
  split <;> split <;> omega

/-- The unsigned reading of the coercion, with the specification's rounding toward zero. -/
theorem toInt32_toNat_towardZero (v : Val) : ((toInt32 v).toNat : Int) = towardZero v % 2 ^ 32 := by
  rw [toInt32_toNat, trunc_eq_towardZero]

theorem toInt32_toInt (v : Val) : (toInt32 v).toInt = signed32 (towardZero v) :=
  word32_toInt_eq_signed32 (toInt32_toNat_towardZero v)

/-! The low 32 bits of an integer -/

/-- Integers that agree modulo 2^32 have the same low 32 bits: they differ by an even multiple of each `2 ^ i`. -/
theorem bit_congr {t u : Int} (h : t ≡ u [ZMOD 2 ^ 32]) {i : Nat} (hi : i < 32) : bit t i = bit u i := by
  obtain ⟨k, hk⟩ := h.dvd
  have hpow : (2 : Int) ^ 32 = 2 ^ i * (2 * 2 ^ (31 - i)) := by
    rw [← pow_succ', ← pow_add]
    congr 1
    omega
  have hu : u = t + 2 ^ i * (2 * (2 ^ (31 - i) * k)) := by
    rw [← mul_assoc 2, ← mul_assoc, ← hpow]
    omega
  rw [bit, bit, hu, Int.add_mul_ediv_left _ _ (by positivity), Int.add_mul_emod_self_left]

theorem bit_natCast_eq_one {n i : Nat} : bit (n : Int) i = 1 ↔ n.testBit i = true := by
  rw [Nat.testBit_eq_decide_div_mod_eq, decide_eq_true_iff, bit]
  norm_cast

/-- Both readings of a 32-bit word agree modulo 2^32. -/
theorem word32_toInt_modEq_toNat (w : BitVec 32) : w.toInt ≡ (w.toNat : Int) [ZMOD 2 ^ 32] := by
  rw [BitVec.toInt_eq_toNat_bmod]
  exact Int.bmod_emod

/-- The low bits of the signed reading of a 32-bit word are the word's own. -/
theorem bit_word32_toInt (w : BitVec 32) {i : Nat} (hi : i < 32) : bit w.toInt i = 1 ↔ w.getLsbD i = true := by
  rw [bit_congr (word32_toInt_modEq_toNat w) hi]
  exact bit_natCast_eq_one

/-- The bits of the coercion are the low 32 bits of the truncated value (R210). -/
theorem toInt32_getLsbD (v : Val) {i : Nat} (hi : i < 32) :
    (toInt32 v).getLsbD i = true ↔ bit (towardZero v) i = 1 := by
  have hmod : ((toInt32 v).toNat : Int) ≡ towardZero v [ZMOD 2 ^ 32] := by
    rw [toInt32_toNat_towardZero]
    exact Int.mod_modEq _ _
  rw [← bit_congr hmod hi]
  exact bit_natCast_eq_one.symm

/-! The words that the three instructions compute -/

/-- The complement, read as signed (R212). -/
theorem word32_toInt_not (w : BitVec 32) : (~~~w).toInt = -w.toInt - 1 := by
  have hnot : (~~~w).toNat = 2 ^ 32 - 1 - w.toNat := BitVec.toNat_not
  have hlt : w.toNat < 2 ^ 32 := w.isLt
  rw [BitVec.toInt_eq_toNat_cond, BitVec.toInt_eq_toNat_cond, hnot]
  split <;> split <;> omega

/-- The bits of AND's result (R213). -/
theorem bit_and_toInt32 (a b : Val) {i : Nat} (hi : i < 32) :
    bit (toInt32 a &&& toInt32 b).toInt i = 1 ↔ bit (towardZero a) i = 1 ∧ bit (towardZero b) i = 1 := by
  rw [bit_word32_toInt _ hi, BitVec.getLsbD_and, Bool.and_eq_true, toInt32_getLsbD a hi, toInt32_getLsbD b hi]

/-- The bits of OR's result (R214). -/
theorem bit_or_toInt32 (a b : Val) {i : Nat} (hi : i < 32) :
    bit (toInt32 a ||| toInt32 b).toInt i = 1 ↔ bit (towardZero a) i = 1 ∨ bit (towardZero b) i = 1 := by
  rw [bit_word32_toInt _ hi, BitVec.getLsbD_or, Bool.or_eq_true, toInt32_getLsbD a hi, toInt32_getLsbD b hi]

/-! NOT, AND and OR at `exec` -/

theorem exec_not_concat {s : State} {base : List Val} {a : Val} (h : s.stack = base ++ [a]) :
    exec .not s = .next { s with stack := base ++ [((~~~toInt32 a).toInt : Val)] } := by
  rw [exec, execNot, operate1_concat _ h]
  rfl

theorem exec_and_concat {s : State} {base : List Val} {a b : Val} (h : s.stack = base ++ [a, b]) :
    exec .and s = .next { s with stack := base ++ [((toInt32 a &&& toInt32 b).toInt : Val)] } :=
  operate2_results_concat (fun a b => [ofInt32 (toInt32 a &&& toInt32 b)]) h

theorem exec_or_concat {s : State} {base : List Val} {a b : Val} (h : s.stack = base ++ [a, b]) :
    exec .or s = .next { s with stack := base ++ [((toInt32 a ||| toInt32 b).toInt : Val)] } :=
  operate2_results_concat (fun a b => [ofInt32 (toInt32 a ||| toInt32 b)]) h

theorem exec_not_empty {s : State} (h : s.stack = []) : exec .not s = .next (s.raise .stackUnderflow) := by
  rw [exec, execNot, operate1_empty _ h, outcome_raise]

/-! The statements -/

/-- Settles O40: the coercion's two readings, its range, and the equation of each of the three instructions. -/
theorem toInt32IsTheWrappedTruncation : Obligations.ToInt32IsTheWrappedTruncation := by
  refine ⟨fun v => ?_, fun s base a b => ⟨exec_not_concat, fun h => ?_⟩⟩
  · exact ⟨toInt32_toInt v, toInt32_toNat_towardZero v, BitVec.le_toInt _, word32_toInt_le _⟩
  · exact ⟨exec_and_concat h, exec_or_concat h⟩

/-- Settles O41: each result is the signed reading of a 32-bit word, which `BitVec.le_toInt` and `word32_toInt_le`
bound. -/
theorem bitwiseResultsAreSigned32BitIntegers : Obligations.BitwiseResultsAreSigned32BitIntegers := by
  refine fun s base a b => ⟨fun h => ?_, fun h => ⟨?_, ?_⟩⟩
  · exact ⟨_, BitVec.le_toInt _, word32_toInt_le _, exec_not_concat h⟩
  · exact ⟨_, BitVec.le_toInt _, word32_toInt_le _, exec_and_concat h⟩
  · exact ⟨_, BitVec.le_toInt _, word32_toInt_le _, exec_or_concat h⟩

/-- Settles O42: `word32_toInt_not` for NOT, `bit_and_toInt32` and `bit_or_toInt32` for AND and OR. -/
theorem notAndOrActOnTheLow32Bits : Obligations.NotAndOrActOnTheLow32Bits := by
  refine ⟨by simp [encode, Instr.opcode, Instr.literals], by simp [encode, Instr.opcode, Instr.literals],
    by simp [encode, Instr.opcode, Instr.literals],
    fun s => ⟨fun base a h => ?_, fun base a b h => ⟨?_, ?_⟩, fun h => ?_, fun h i hi => ?_⟩⟩
  · rw [exec_not_concat h, word32_toInt_not, toInt32_toInt]
  · exact ⟨_, exec_and_concat h, BitVec.le_toInt _, word32_toInt_le _, fun _ => bit_and_toInt32 a b⟩
  · exact ⟨_, exec_or_concat h, BitVec.le_toInt _, word32_toInt_le _, fun _ => bit_or_toInt32 a b⟩
  · exact exec_not_empty (stack_eq_nil_of_sp_eq_zero h)
  · rcases hi with rfl | rfl <;> exact ⟨_, operate2_short_outcome _ h, State.raise_fault _ _⟩

end Sys2Proof.Machine

/-! ### Proofs: reset of the empty program (R270, R271) -/

namespace Sys2Proof.Machine

/-- A state at the end of a run fails the loop's test (R273). -/
theorem State.EndOfRun.isRunning_eq_false {s : State} (h : s.EndOfRun) : s.isRunning = false := by
  obtain ⟨hh, -⟩ := h
  simp [State.isRunning, hh]

/-- The reset state of a ROM of length 0 is halted, and not faulted (R270). -/
theorem endOfRun_resetWith_nil : (State.resetWith []).EndOfRun :=
  ⟨rfl, rfl⟩

/-- Settles O2: the empty ROM resets to an end of run (`endOfRun_resetWith_nil`), of which the driver requests no cycle
under any bound (`drive_of_not_running`), so what it returns has the stack, memory and output of reset. -/
theorem emptyProgramEndsAtOnce : Obligations.EmptyProgramEndsAtOnce := by
  intro bound
  have hdrive : drive bound (State.resetWith []) = some (State.resetWith []) :=
    drive_of_not_running endOfRun_resetWith_nil.isRunning_eq_false bound
  exact ⟨State.resetWith [], hdrive, endOfRun_resetWith_nil, rfl, rfl, Memory.read_nil, rfl⟩

end Sys2Proof.Machine

/-! ### Proofs: the decoder and the encoder (R80 to R95)

The decoder inverts the encoder on one instruction, whatever slots follow it, and the encoder the decoder; whole programs
follow by induction on the list of instructions. -/

namespace Sys2Proof

open Machine

/-! One instruction -/

/-- Slots that begin with an instruction's encoding decode to it and leave the slots after it. -/
theorem decode_encode (i : Instr) (rest : List Slot) : decode (encode i ++ rest) = .instr i rest := by
  cases i with
  | push imm => exact Laws.RoundTrip.push imm rest
  | nop | drop | dup | overOp | swap | load | store | jmp | jz | jnz | je | jg | jl | halt | out | add | sub | mul
  | div | mod | not | and | or => exact Laws.RoundTrip.ofRow rfl rfl rest

/-- Settles O10: each number of the table is its instruction's opcode, so `decode_encode` reads it. -/
theorem opcodeNumbersDecodeAsTheTableSays : Obligations.OpcodeNumbersDecodeAsTheTableSays := fun rest imm =>
  ⟨decode_encode .nop rest, decode_encode (.push imm) rest, decode_encode .drop rest, decode_encode .dup rest,
    decode_encode .overOp rest, decode_encode .swap rest, decode_encode .load rest, decode_encode .store rest,
    decode_encode .jmp rest, decode_encode .jz rest, decode_encode .jnz rest, decode_encode .je rest,
    decode_encode .jg rest, decode_encode .jl rest, decode_encode .halt rest, decode_encode .out rest,
    decode_encode .add rest, decode_encode .sub rest, decode_encode .mul rest, decode_encode .div rest,
    decode_encode .mod rest, decode_encode .not rest, decode_encode .and rest, decode_encode .or rest⟩

/-- An opcode of format S1 is the whole encoding of its instruction. -/
theorem encode_of_decodeOpcode_s1 {v : Val} {i : Instr} (h : decodeOpcode v = some (.s1 i)) : encode i = [.num v] := by
  obtain ⟨n, hn, rfl, hrow⟩ := decodeOpcode_some h
  unfold Config.numOpcodes at hn
  interval_cases n <;> cases hrow <;> rfl

/-- The one opcode of format S2 is PUSH's (R88). -/
theorem decodeOpcode_eq_s2Push {v : Val} : decodeOpcode v = some .s2Push ↔ v = 1 := by
  constructor
  · intro h
    obtain ⟨n, hn, rfl, hrow⟩ := decodeOpcode_some h
    have hone : ∀ n < 24, (opcodeTable[n]?).map OpcodeRow.kind = some .s2Push → n = 1 := by decide
    rw [hone n hn hrow, Nat.cast_one]
  · rintro rfl
    exact decodeOpcode_natCast 1

/-- Settles O12: by the format of the opcode in the first slot. -/
theorem decodedSlotsAreTheInstructionsEncoding : Obligations.DecodedSlotsAreTheInstructionsEncoding := by
  intro slots rest i h
  match slots with
  | [] | .bad :: _ => cases h
  | .num v :: more =>
    cases hk : decodeOpcode v with
    | none =>
      rw [decode_illegal hk] at h
      cases h
    | some k =>
      cases k with
      | s1 j =>
        rw [decode_s1 hk] at h
        cases h
        rw [encode_of_decodeOpcode_s1 hk, List.singleton_append]
      | s2Push =>
        rw [decode_s2 hk] at h
        obtain rfl := decodeOpcode_eq_s2Push.mp hk
        match more with
        | [] | .bad :: _ => cases h
        | .num imm :: rest' =>
          cases h
          rfl

/-! Whole programs -/

theorem assemble_nil : assemble [] = [] := rfl

theorem assemble_cons (i : Instr) (program : List Instr) : assemble (i :: program) = encode i ++ assemble program :=
  List.flatMap_cons

theorem assemble_append (before after : List Instr) : assemble (before ++ after) = assemble before ++ assemble after :=
  List.flatMap_append

theorem length_encode (i : Instr) : (encode i).length = i.literals.length + 1 :=
  rfl

/-- Every instruction takes at least one slot. -/
theorem length_le_length_assemble (program : List Instr) : program.length ≤ (assemble program).length := by
  induction program with
  | nil => exact le_rfl
  | cons i program ih =>
    rw [assemble_cons, List.length_append, length_encode, List.length_cons]
    omega

/-- One instruction read off the front of a ROM (R81). -/
theorem disassembleWithin_encode_append (bound : Nat) (i : Instr) (rest : List Slot) :
    disassembleWithin (bound + 1) (encode i ++ rest) = (disassembleWithin bound rest).map (i :: ·) := by
  have h := decode_encode i rest
  rw [encode, List.cons_append] at h ⊢
  simp only [disassembleWithin, h]

/-- Any bound of at least the number of instructions reads an assembled program back. -/
theorem disassembleWithin_assemble {program : List Instr} {bound : Nat} (h : program.length ≤ bound) :
    disassembleWithin bound (assemble program) = some program := by
  induction program generalizing bound with
  | nil => cases bound <;> rfl
  | cons i program ih =>
    obtain ⟨bound, rfl⟩ := Nat.exists_eq_add_of_lt h
    rw [assemble_cons, disassembleWithin_encode_append, ih (by omega), Option.map_some]

/-- Settles O11: by induction on the program (`disassembleWithin_assemble`), each instruction by `decode_encode`. -/
theorem disassemblingAnAssembledProgramGivesItBack : Obligations.DisassemblingAnAssembledProgramGivesItBack :=
  fun program => disassembleWithin_assemble (length_le_length_assemble program)

end Sys2Proof

/-! ### Proofs: the frame of every instruction (R36, R86, R93, R232)

Read off the inversion `exec_effect`: an instruction raises a fault, and has then only popped entries, or it completes and
leaves what `Completed` says. -/

namespace Sys2Proof.Machine

/-- The instruction `i` ends by raising `f`: entries at the top of the stack are gone, and nothing else changed. -/
structure RaisedBy (i : Instr) (s t : State) (f : FaultStatus) : Prop where
  onlyPops : ∃ base popped, s.stack = base ++ popped ∧ t = State.raise f { s with stack := base }
  listed : (f = .stackUnderflow ∧ s.sp < i.pops) ∨ RaisesAfterPops i f

theorem exec_raises_or_completes {i : Instr} {s t : State} (h : exec i s = .next t) :
    (∃ f, RaisedBy i s t f) ∨ ∃ base operands, s.stack = base ++ operands ∧ operands.length = i.pops ∧
      Completed i s t base operands := by
  cases exec_effect h with
  | underflow few left => exact .inl ⟨_, ⟨[], s.stack, rfl, left⟩, .inl ⟨rfl, few⟩⟩
  | raised base operands f found _ may left => exact .inl ⟨f, ⟨base, operands, found, left⟩, .inr may⟩
  | completed base operands found popped left => exact .inr ⟨base, operands, found, popped, left⟩

/-- From a state without a fault, an instruction that leaves one has raised it. -/
theorem exec_raisedBy {i : Instr} {s t : State} {f : FaultStatus} (hs : s.fault = none) (h : exec i s = .next t)
    (hf : t.fault = some f) : RaisedBy i s t f := by
  rcases exec_raises_or_completes h with ⟨g, hg⟩ | ⟨base, operands, -, -, left⟩
  · obtain ⟨base, popped, -, rfl⟩ := hg.onlyPops
    rw [State.raise_fault, Option.some.injEq] at hf
    exact hf ▸ hg
  · rw [left.fault, hs] at hf
    cases hf

/-- An instruction that leaves no fault has completed. -/
theorem exec_completed {i : Instr} {s t : State} (h : exec i s = .next t) (hf : t.fault = none) :
    ∃ base operands, s.stack = base ++ operands ∧ operands.length = i.pops ∧ Completed i s t base operands := by
  rcases exec_raises_or_completes h with ⟨g, hg⟩ | hc
  · obtain ⟨base, popped, -, rfl⟩ := hg.onlyPops
    cases hf
  · exact hc

/-- The entries an instruction found on the stack, counted. -/
theorem sp_of_found {s : State} {base operands : List Val} {n : Nat} (found : s.stack = base ++ operands)
    (popped : operands.length = n) : s.sp = base.length + n := by
  rw [State.sp_eq, found, List.length_append, popped]

/-! Which faults -/

/-- Settles O43: of the three outcomes of `exec_effect` only the underflow is open to an instruction that finds fewer
entries than it pops. -/
theorem tooFewEntriesUnderflowBeforeAnyOtherFault : Obligations.TooFewEntriesUnderflowBeforeAnyOtherFault := by
  intro i s hfew
  obtain ⟨t, h⟩ := exec_next i s
  cases exec_effect h with
  | underflow _ left => exact h.trans (congrArg Host.Outcome.next left)
  | raised base operands f found popped => exact absurd (sp_of_found found popped) (by omega)
  | completed base operands found popped => exact absurd (sp_of_found found popped) (by omega)

/-- Settles O44: the fault, if there is one, is one that `exec_raisedBy` lists. -/
theorem instructionsRaiseOnlyTheirListedFaults : Obligations.InstructionsRaiseOnlyTheirListedFaults := by
  intro i s t hs h
  cases hf : t.fault with
  | none => exact .inl rfl
  | some f =>
    rcases (exec_raisedBy hs h hf).listed with ⟨rfl, few⟩ | may
    · exact .inr (.inl ⟨rfl, few⟩)
    · cases f with
      | illegalAddress w =>
        obtain ⟨hi, -⟩ := may
        exact .inr (.inr (.inl ⟨w, rfl, hi⟩))
      | illegalJumpTarget w => exact .inr (.inr (.inr (.inl ⟨w, rfl, may⟩)))
      | divisionByZero w => exact .inr (.inr (.inr (.inr ⟨w, rfl, may⟩)))
      | illegalValue | illegalOpcode | stackUnderflow | fetchOutOfRange => exact may.elim

/-- Settles O48: a completed instruction found `i.pops` operands above the base and left `i.pushes` results there. -/
theorem completedInstructionsObeyTheirArity : Obligations.CompletedInstructionsObeyTheirArity := by
  intro i s t h hf
  obtain ⟨base, operands, found, popped, left⟩ := exec_completed h hf
  obtain ⟨rs, hrs, ht⟩ := left.stack
  have hs := sp_of_found found popped
  have ht := sp_of_found ht hrs
  omega

/-! Which state -/

/-- NOP and HALT leave the stack alone. -/
theorem exec_stack_of_nop_or_halt {i : Instr} {s t : State} (hi : i = .nop ∨ i = .halt) (h : exec i s = .next t) :
    t.stack = s.stack := by
  rcases hi with rfl | rfl
  · rw [exec_nop, Host.Outcome.next.injEq] at h
    rw [h]
  · rw [exec_halt, Host.Outcome.next.injEq] at h
    rw [← h]

/-- What a STORE of `v` at the address that `w` translates to leaves of memory, if it completes. -/
theorem Completed.mem_of_store {s t : State} {base operands base' : List Val} {w v : Val}
    (left : Completed .store s t base operands) (found : s.stack = base ++ operands)
    (hs : s.stack = base' ++ [w, v]) : ∃ a, address? w = some a ∧ t.mem = Memory.write s.mem a v := by
  obtain ⟨hne, -⟩ | ⟨-, w', v', a, rfl, ha, hm⟩ := left.mem
  · exact absurd rfl hne
  · obtain ⟨-, hwv⟩ := List.append_inj' (found.symm.trans hs) rfl
    injection hwv with hw hv
    injection hv with hv
    exact ⟨a, hw ▸ ha, hv ▸ hm⟩

/-- A STORE that completes found two entries. -/
theorem Completed.not_short_of_store {s t : State} {base operands : List Val}
    (left : Completed .store s t base operands) (found : s.stack = base ++ operands) : ¬s.sp < 2 := by
  obtain ⟨hne, -⟩ | ⟨-, w, v, a, rfl, -, -⟩ := left.mem
  · exact absurd rfl hne
  · have := sp_of_found (n := 2) found rfl
    omega

/-- Only STORE writes memory. -/
theorem exec_mem_of_ne_store {i : Instr} {s t : State} (hi : i ≠ .store) (h : exec i s = .next t) : t.mem = s.mem := by
  rcases exec_raises_or_completes h with ⟨f, hr⟩ | ⟨base, operands, -, -, left⟩
  · obtain ⟨base, popped, -, rfl⟩ := hr.onlyPops
    rfl
  · obtain ⟨-, hm⟩ | ⟨hstore, -⟩ := left.mem
    · exact hm
    · exact absurd hstore hi

/-- Settles O49: a fault changes nothing but the stack and the fault itself, and a completed instruction is framed by
`Completed`, clause by clause. -/
theorem onlyTheListedStateIsWritten : Obligations.OnlyTheListedStateIsWritten := by
  intro i s t h
  have hstack := fun hi => exec_stack_of_nop_or_halt hi h
  have hmem : i ≠ .store → ∀ b, Memory.read t.mem b = Memory.read s.mem b := fun hi b => by
    rw [exec_mem_of_ne_store hi h]
  rcases exec_raises_or_completes h with ⟨f, hr⟩ | ⟨base, operands, found, popped, left⟩
  · obtain ⟨base, popped, -, rfl⟩ := hr.onlyPops
    exact ⟨rfl, fun _ => rfl, fun _ => rfl, fun _ _ => rfl, hstack, hmem, fun _ _ _ => rfl,
      fun _ _ _ _ _ _ _ _ => rfl⟩
  · refine ⟨left.rom, fun hi => ?_, fun hi => ?_, fun hpush hbranch => ?_, hstack, hmem, ?_, ?_⟩
    · exact left.halted.elim And.right fun hhalt => absurd hhalt.1 hi
    · exact left.out.elim And.right fun hout => absurd hout.1 hi
    · obtain ⟨-, hpc⟩ | ⟨imm, hi, -⟩ | ⟨hi, -⟩ := left.pc
      · exact hpc
      · exact absurd hi (hpush imm)
      · rw [hbranch] at hi
        cases hi
    · rintro rfl hshort
      exact absurd hshort (left.not_short_of_store found)
    · rintro rfl hwf base' w v hs b hb
      obtain ⟨a, ha, hm⟩ := left.mem_of_store found hs
      rw [hm, Memory.read_write_of_ne hwf]
      rintro rfl
      exact hb ha

end Sys2Proof.Machine

/-! ### Proofs: fetch, decode and the cycle (R82 to R91, R121, R241, R276)

The fetch half of a cycle, one equation per failure (R237) and one for the slots that decode to an instruction; the cycle
is then that instruction's `exec` and the end check. -/

namespace Sys2Proof.Machine

/-! Fetches and decodes that fail -/

/-- The illegal opcodes are all values but the numbers of the table (R84, R91). -/
theorem decodeOpcode_eq_none {v : Val} : decodeOpcode v = none ↔ ¬∃ n : Nat, n < Config.numOpcodes ∧ v = n := by
  constructor
  · rintro h ⟨n, hn, rfl⟩
    rw [decodeOpcode_natCast, Option.map_eq_none_iff, List.getElem?_eq_none_iff, opcodeTable_length] at h
    omega
  · intro h
    by_contra hk
    obtain ⟨k, hk⟩ := Option.ne_none_iff_exists'.mp hk
    obtain ⟨n, hn, hv, -⟩ := decodeOpcode_some hk
    exact h ⟨n, hn, hv⟩

theorem fetchInstr_end {s : State} (h : s.rom[s.pc]? = none) :
    fetchInstr s = .raised (s.raise (.fetchOutOfRange s.pc)) := by
  rw [fetchInstr, fetch, readSlot_end h]
  rfl

theorem fetchInstr_bad {s : State} (h : s.rom[s.pc]? = some .bad) :
    fetchInstr s = .raised (s.raise (.illegalValue s.pc)) := by
  rw [fetchInstr, fetch, readSlot_bad h]
  rfl

theorem fetchInstr_illegal {s : State} {v : Val} (h : s.rom[s.pc]? = some (.num v)) (hd : decodeOpcode v = none) :
    fetchInstr s = .raised ((s.setPc (s.pc + 1)).raise (.illegalOpcode v)) := by
  rw [fetchInstr, fetch_eq_done.mpr ⟨h, rfl⟩, Micro.andThen_done, decodeKind, hd]
  rfl

/-- After PUSH's opcode the fetch half goes on to read the literal's slot (log 4). -/
theorem fetchInstr_push {s : State} (h : s.rom[s.pc]? = some (.num 1)) :
    fetchInstr s = (readSlot (s.setPc (s.pc + 1))).andThen fun imm s => .done (.push imm) s := by
  rw [fetchInstr, fetch_eq_done.mpr ⟨h, rfl⟩, Micro.andThen_done, decodeKind, decodeOpcode_eq_s2Push.mpr rfl]
  rfl

theorem fetchInstr_push_end {s : State} (h : s.rom[s.pc]? = some (.num 1)) (hl : s.rom[s.pc + 1]? = none) :
    fetchInstr s = .raised ((s.setPc (s.pc + 1)).raise (.fetchOutOfRange (s.pc + 1))) := by
  rw [fetchInstr_push h, readSlot_end hl]
  rfl

theorem fetchInstr_push_bad {s : State} (h : s.rom[s.pc]? = some (.num 1)) (hl : s.rom[s.pc + 1]? = some .bad) :
    fetchInstr s = .raised ((s.setPc (s.pc + 1)).raise (.illegalValue (s.pc + 1))) := by
  rw [fetchInstr_push h, readSlot_bad hl]
  rfl

theorem fetchInstr_push_num {s : State} {imm : Val} (h : s.rom[s.pc]? = some (.num 1))
    (hl : s.rom[s.pc + 1]? = some (.num imm)) : fetchInstr s = .done (.push imm) (s.setPc (s.pc + 1)) := by
  rw [fetchInstr_push h, readSlot_num hl]
  rfl

/-- Settles O7: the five equations of the fetch half that fails, each ending the cycle (`step_of_fetch_raised`). -/
theorem failedFetchOrDecodeRaisesItsFault : Obligations.FailedFetchOrDecodeRaisesItsFault := by
  refine fun s hr => ⟨fun h => ?_, fun h => ?_, fun v h hv => ?_, fun h hl => ?_, fun h hl => ?_⟩
  · exact step_of_fetch_raised hr (fetchInstr_end (List.getElem?_eq_none h))
  · exact step_of_fetch_raised hr (fetchInstr_bad h)
  · exact step_of_fetch_raised hr (fetchInstr_illegal h (decodeOpcode_eq_none.mpr hv))
  · exact step_of_fetch_raised hr (fetchInstr_push_end h (List.getElem?_eq_none hl.ge))
  · exact step_of_fetch_raised hr (fetchInstr_push_bad h hl)

/-! The cycle of a decoded instruction -/

/-- The fetch half answers the instruction that the slots at `pc` decode to, with `pc` past its opcode. -/
theorem fetchInstr_of_decode {s : State} {i : Instr} {rest : List Slot}
    (h : decode (s.rom.drop s.pc) = .instr i rest) : fetchInstr s = .done i (s.setPc (s.pc + 1)) := by
  cases e : fetchInstr s with
  | done j t =>
    obtain ⟨rfl, -, ⟨rest', hj⟩, -⟩ := fetchInstr_done e
    rw [h] at hj
    cases hj
    rfl
  | raised t =>
    rcases fetchInstr_raised e with ⟨hs, -⟩ | ⟨hs, -⟩ | ⟨v, hs, hd, -⟩ | ⟨v, hs, hd, hl, -⟩ | ⟨v, hs, hd, hl, -⟩
    · rw [List.drop_eq_nil_of_le (List.getElem?_eq_none_iff.mp hs)] at h
      cases h
    · rw [drop_pc hs] at h
      cases h
    · rw [drop_pc hs, decode_illegal hd] at h
      cases h
    · rw [drop_pc hs, decode_s2 hd, List.drop_eq_nil_of_le (List.getElem?_eq_none_iff.mp hl)] at h
      cases h
    · rw [drop_pc hs, decode_s2 hd, drop_pc hl] at h
      cases h

/-- A running state's step is the decoded instruction's `exec` and the end check. -/
theorem step_of_decode {s : State} {i : Instr} {rest : List Slot} (hr : s.Running)
    (hd : decode (s.rom.drop s.pc) = .instr i rest) :
    ∃ t, exec i (s.setPc (s.pc + 1)) = .next t ∧ step s = .next (endCheck t) := by
  obtain ⟨t, ht⟩ := exec_next i (s.setPc (s.pc + 1))
  exact ⟨t, ht, step_of_exec_next hr (fetchInstr_of_decode hd) ht⟩

/-- The inversion of `step_of_decode`: every next state is one that `exec` and the end check leave. -/
theorem exec_of_step {s t : State} {i : Instr} {rest : List Slot} (hr : s.Running)
    (hd : decode (s.rom.drop s.pc) = .instr i rest) (h : step s = .next t) :
    ∃ u, exec i (s.setPc (s.pc + 1)) = .next u ∧ t = endCheck u := by
  obtain ⟨u, hu, hstep⟩ := step_of_decode hr hd
  rw [h, Host.Outcome.next.injEq] at hstep
  exact ⟨u, hu, hstep⟩

/-- The slots at `pc` that decode to an instruction begin inside ROM. -/
theorem pc_lt_of_decode {s : State} {i : Instr} {rest : List Slot} (h : decode (s.rom.drop s.pc) = .instr i rest) :
    s.pc < s.rom.length := by
  obtain ⟨-, hlt, -⟩ := fetchInstr_done (fetchInstr_of_decode h)
  exact hlt

/-- Settles O6: `step_of_decode`; the end check is the specification's, word for word. -/
theorem stepRunsTheDecodedInstruction : Obligations.StepRunsTheDecodedInstruction :=
  fun _ _ _ hr _ hd => step_of_decode hr hd

/-- The slots at the first slot of an instruction of an assembled program decode to it. -/
theorem decode_drop_assemble (before after : List Instr) (i : Instr) :
    decode ((assemble (before ++ i :: after)).drop (assemble before).length) = .instr i (assemble after) := by
  rw [assemble_append, List.drop_left, assemble_cons, decode_encode]

/-- Only PUSH has a literal slot (R88). -/
theorem literals_eq_nil {i : Instr} (h : ∀ imm, i ≠ .push imm) : i.literals = [] := by
  cases i with
  | push imm => exact absurd rfl (h imm)
  | _ => rfl

/-- An instruction that is no branch and completes leaves `pc` after its last slot. -/
theorem Completed.pc_of_not_branch {i : Instr} {s t : State} {base operands : List Val}
    (left : Completed i s t base operands) (hi : i.isBranch = false) : t.pc = s.pc + i.literals.length := by
  obtain ⟨hpush, hpc⟩ | ⟨imm, rfl, hpc⟩ | ⟨hbranch, -⟩ := left.pc
  · rw [literals_eq_nil hpush]
    exact hpc
  · exact hpc
  · rw [hi] at hbranch
    cases hbranch

/-- Settles O13: the slots at `pc` decode to the instruction (`decode_drop_assemble`), so the step is its `exec`
(`step_of_decode`), and an instruction that is no branch leaves `pc` after its slots. -/
theorem assembledProgramRunsAsWritten : Obligations.AssembledProgramRunsAsWritten := by
  intro before after i s hr hrom hpc
  have hd : decode (s.rom.drop s.pc) = .instr i (assemble after) := by
    rw [hrom, hpc]
    exact decode_drop_assemble before after i
  refine ⟨step_of_decode hr hd, fun hi u hu hf => ?_⟩
  obtain ⟨t, ht, rfl⟩ := exec_of_step hr hd hu
  rw [endCheck_fault_eq] at hf
  obtain ⟨base, operands, -, -, left⟩ := exec_completed ht hf
  have hend : (assemble (before ++ [i])).length = s.pc + 1 + i.literals.length := by
    rw [assemble_append, List.length_append, ← hpc, assemble_cons, assemble_nil, List.append_nil, length_encode]
    omega
  rw [endCheck_pc, left.pc_of_not_branch hi, State.setPc_pc, hend]

/-! PUSH -/

theorem exec_push (s : State) (imm : Val) :
    exec (.push imm) s = .next { s with pc := s.pc + 1, stack := s.stack ++ [imm] } := rfl

/-- Settles O15: the fetch half reads the literal's slot (`fetchInstr_push_num` and the two failures), and `exec_push`
moves `pc` past it. -/
theorem pushTakesTheSlotAfterItsOpcode : Obligations.PushTakesTheSlotAfterItsOpcode := by
  refine ⟨fun imm => by simp [encode, Instr.opcode, Instr.literals], exec_push, fun s hr hslot =>
    ⟨fun imm hl => ?_, fun hl => ?_, fun hl => ?_⟩⟩
  · have hlt : s.pc + 1 < s.len := (List.getElem?_eq_some_iff.mp hl).1
    rw [step_of_exec_next hr (fetchInstr_push_num hslot hl) (exec_push _ imm)]
    exact congrArg _ (endCheck_of_running (s := { s with pc := s.pc + 2, stack := s.stack ++ [imm] }) hr hlt)
  · exact step_of_fetch_raised hr (fetchInstr_push_end hslot (List.getElem?_eq_none hl.ge))
  · exact step_of_fetch_raised hr (fetchInstr_push_bad hslot hl)

/-! Halted and faulted states, and progress -/

/-- Settles O3: `step_of_halted`, and `drive_of_not_running` for the driver. -/
theorem haltedStateIsLeftAsItIs : Obligations.HaltedStateIsLeftAsItIs :=
  fun _ ⟨hh, hf⟩ => ⟨step_of_halted hf hh, drive_of_not_running (State.EndOfRun.isRunning_eq_false ⟨hh, hf⟩)⟩

/-- Settles O4: the cycle tests the fault status first. -/
theorem faultedStateHasNoTransition : Obligations.FaultedStateHasNoTransition := by
  intro s f h
  rw [step, h]

/-- A state without a fault has a next state: itself if it is halted, and otherwise what its failed fetch half or its
instruction leaves, for every instruction has a next state (`exec_next`). -/
theorem step_next {s : State} (hf : s.fault = none) : ∃ t, step s = .next t := by
  cases hh : s.halted with
  | true => exact ⟨s, step_of_halted hf hh⟩
  | false =>
    cases e : fetchInstr s with
    | raised t => exact ⟨t, step_of_fetch_raised ⟨hh, hf⟩ e⟩
    | done i t =>
      obtain ⟨u, hu⟩ := exec_next i t
      exact ⟨endCheck u, step_of_exec_next ⟨hh, hf⟩ e hu⟩

/-- Settles O5: `step_next` and `exec_next`. -/
theorem everyUnfaultedStateHasANextState : Obligations.EveryUnfaultedStateHasANextState :=
  ⟨fun _ => step_next, exec_next⟩

end Sys2Proof.Machine

/-! ### Proofs: what every cycle keeps (R23, R30, R31, R50, R83, R91, R236, R237)

A cycle that ends faulted has raised the fault in its fetch half, which only moves `pc`, or in its instruction, which only
pops (`step_raised`). The invariant is kept by each of the three ends of a cycle: a halted state, a raised fetch, an
instruction with its end check. -/

namespace Sys2Proof.Machine

/-! Cycles that raise a fault -/

/-- A failed fetch half only moves `pc`, and only past a slot of ROM. -/
theorem fetchInstr_raised_moves_pc {s t : State} (h : fetchInstr s = .raised t) :
    ∃ f n, t = (s.setPc n).raise f ∧ (n = s.pc ∨ n = s.pc + 1 ∧ s.pc < s.len) := by
  have hlt {v : Val} (hs : s.rom[s.pc]? = some (.num v)) : s.pc < s.len := (List.getElem?_eq_some_iff.mp hs).1
  rcases fetchInstr_raised h with ⟨-, rfl⟩ | ⟨-, rfl⟩ | ⟨v, hs, -, rfl⟩ | ⟨v, hs, -, -, rfl⟩ | ⟨v, hs, -, -, rfl⟩
  · exact ⟨_, s.pc, rfl, .inl rfl⟩
  · exact ⟨_, s.pc, rfl, .inl rfl⟩
  all_goals exact ⟨_, s.pc + 1, rfl, .inr ⟨rfl, hlt hs⟩⟩

/-- A step that ends faulted ran in a running state, and its fetch half or its instruction raised the fault. -/
theorem step_raised {s t : State} {f : FaultStatus} (h : step s = .next t) (hf : t.fault = some f) :
    s.Running ∧ (fetchInstr s = .raised t ∨ ∃ i, RaisedBy i (s.setPc (s.pc + 1)) t f) := by
  obtain ⟨hs, ⟨-, rfl⟩ | ⟨hh, e | ⟨i, u, -, x, rfl⟩⟩⟩ := step_cases h
  · rw [hs] at hf
    cases hf
  · exact ⟨⟨hh, hs⟩, .inl e⟩
  · rw [endCheck_fault_eq] at hf
    rw [endCheck_fault hf]
    exact ⟨⟨hh, hs⟩, .inr ⟨i, exec_raisedBy hs x hf⟩⟩

/-- Settles O45: neither way to raise a fault (`step_raised`) does more than pop and move `pc`. -/
theorem faultingCycleOnlyPops : Obligations.FaultingCycleOnlyPops := by
  intro s t h ht
  obtain ⟨f, hf⟩ := Option.ne_none_iff_exists'.mp ht
  obtain ⟨⟨hh, -⟩, e | ⟨i, hr⟩⟩ := step_raised h hf
  · obtain ⟨g, n, rfl, hn⟩ := fetchInstr_raised_moves_pc e
    exact ⟨hh, rfl, rfl, rfl, hn.imp_right And.left, [], (List.append_nil _).symm⟩
  · obtain ⟨base, popped, hs, rfl⟩ := hr.onlyPops
    exact ⟨hh, rfl, rfl, rfl, .inr rfl, popped, hs⟩

/-! The faults of the fetch half -/

theorem decodeOpcode_of_raised_illegalOpcode {s t : State} {v : Val} (h : fetchInstr s = .raised t)
    (hf : t.fault = some (.illegalOpcode v)) : decodeOpcode v = none := by
  rcases fetchInstr_raised h with ⟨-, rfl⟩ | ⟨-, rfl⟩ | ⟨w, -, hd, rfl⟩ | ⟨w, -, -, -, rfl⟩ | ⟨w, -, -, -, rfl⟩ <;>
    cases hf
  exact hd

/-- Settles O8: only the fetch half raises IllegalOpcode, of the values that `decodeOpcode_eq_none` gives. -/
theorem illegalOpcodesAreAllButTheTwentyFour : Obligations.IllegalOpcodesAreAllButTheTwentyFour := by
  intro s hr
  refine ⟨fun v hslot => ?_, fun hslot => ⟨_, step_of_fetch_raised hr (fetchInstr_bad hslot), rfl⟩⟩
  have hlegal : (∃ n : Nat, n ≤ 0x17 ∧ v = n) ↔ ∃ n : Nat, n < Config.numOpcodes ∧ v = n :=
    exists_congr fun _ => and_congr_left' Nat.lt_succ_iff.symm
  rw [hlegal, ← decodeOpcode_eq_none]
  refine ⟨⟨?_, fun hd => ⟨_, step_of_fetch_raised hr (fetchInstr_illegal hslot hd), rfl⟩⟩, fun hv => ?_⟩
  · rintro ⟨t, h, hf⟩
    obtain ⟨-, e | ⟨i, hi⟩⟩ := step_raised h hf
    · exact decodeOpcode_of_raised_illegalOpcode e hf
    · simpa [RaisesAfterPops] using hi.listed
  · exact Option.ne_none_iff_exists'.mp fun hd => decodeOpcode_eq_none.mp hd hv

/-- The two ways to fetch out of range (R82, R83): no opcode slot, or no literal slot after PUSH's opcode. -/
theorem slots_of_raised_fetchOutOfRange {s t : State} {n : Nat} (h : fetchInstr s = .raised t)
    (hf : t.fault = some (.fetchOutOfRange n)) :
    s.rom[s.pc]? = none ∨ s.rom[s.pc]? = some (.num 1) ∧ s.rom[s.pc + 1]? = none ∧ n = s.pc + 1 := by
  rcases fetchInstr_raised h with ⟨hs, rfl⟩ | ⟨-, rfl⟩ | ⟨v, -, -, rfl⟩ | ⟨v, hs, hd, hl, rfl⟩ | ⟨v, -, -, -, rfl⟩ <;>
    cases hf
  · exact .inl hs
  · exact .inr ⟨decodeOpcode_eq_s2Push.mp hd ▸ hs, hl, rfl⟩

/-- A running state between cycles has `pc` inside ROM (R23). -/
theorem State.Inv.pc_lt {s : State} (hs : s.Inv) (hr : s.Running) : s.pc < s.len := by
  obtain ⟨hh, hf⟩ := hr
  refine lt_of_le_of_ne hs.pcInRange fun hend => ?_
  rcases hs.pcAtEnd hend with h | h
  · rw [hh] at h
    cases h
  · exact h hf

/-- Settles O47: `pc` is inside ROM (`State.Inv.pc_lt`), so of the two ways to fetch out of range only PUSH's is left. -/
theorem onlyALastPushFetchesOutOfRange : Obligations.OnlyALastPushFetchesOutOfRange := by
  intro s t n hs h hf
  obtain ⟨hr, e | ⟨i, hi⟩⟩ := step_raised h hf
  · have hlt : s.pc < s.rom.length := hs.pc_lt hr
    rcases slots_of_raised_fetchOutOfRange e hf with hnone | ⟨hpush, hnone, rfl⟩
    · exact absurd (List.getElem?_eq_none_iff.mp hnone) hlt.not_ge
    · have hle := List.getElem?_eq_none_iff.mp hnone
      exact ⟨hpush, by omega, by omega⟩
  · simpa [RaisesAfterPops] using hi.listed

/-! The invariant -/

theorem exec_memWf {i : Instr} {s t : State} (h : exec i s = .next t) (hs : Memory.wf s.mem) : Memory.wf t.mem := by
  rcases exec_raises_or_completes h with ⟨f, hr⟩ | ⟨base, operands, -, -, left⟩
  · obtain ⟨base, popped, -, rfl⟩ := hr.onlyPops
    exact hs
  · obtain ⟨-, hm⟩ | ⟨-, w, v, a, -, -, hm⟩ := left.mem <;> rw [hm]
    · exact hs
    · exact Memory.wf_write hs a v

/-- An instruction leaves `pc` in `[0, LEN]`, if a PUSH has its literal slot inside ROM. -/
theorem exec_pc_le {i : Instr} {s t : State} (h : exec i s = .next t) (hs : s.pc ≤ s.len)
    (hpush : ∀ imm, i = .push imm → s.pc < s.len) : t.pc ≤ s.len := by
  rcases exec_raises_or_completes h with ⟨f, hr⟩ | ⟨base, operands, -, -, left⟩
  · obtain ⟨base, popped, -, rfl⟩ := hr.onlyPops
    exact hs
  · obtain ⟨-, hpc⟩ | ⟨imm, hi, hpc⟩ | ⟨-, hpc⟩ := left.pc
    · exact hpc ▸ hs
    · exact hpc ▸ hpush imm hi
    · exact hpc.le

/-- An instruction that raises a fault does not halt. -/
theorem exec_halted_of_fault {i : Instr} {s t : State} (hs : s.fault = none) (h : exec i s = .next t)
    (ht : t.fault ≠ none) : t.halted = s.halted := by
  obtain ⟨f, hf⟩ := Option.ne_none_iff_exists'.mp ht
  obtain ⟨base, popped, -, rfl⟩ := (exec_raisedBy hs h hf).onlyPops
  rfl

/-- When the end check leaves a state halted (R90). -/
theorem endCheck_halted_iff {s : State} :
    (endCheck s).halted = true ↔ s.halted = true ∨ s.fault = none ∧ s.len ≤ s.pc := by
  by_cases hend : s.fault = none ∧ s.len ≤ s.pc
  · obtain ⟨hf, hp⟩ := hend
    rw [endCheck_halts hf hp]
    exact iff_of_true rfl (.inr ⟨hf, hp⟩)
  · rw [endCheck, if_neg fun ⟨hf, _, hp⟩ => hend ⟨hf, hp⟩]
    exact (or_iff_left hend).symm

/-- The end check establishes the invariant: it halts at the end of ROM, and not in a faulted state. -/
theorem inv_endCheck {s : State} (hmem : Memory.wf s.mem) (hpc : s.pc ≤ s.len)
    (hh : s.fault ≠ none → s.halted = false) : (endCheck s).Inv where
  memWf := by rwa [endCheck_mem]
  pcInRange := by rwa [endCheck_pc, State.len_eq, endCheck_rom]
  pcAtEnd := by
    rw [endCheck_pc, State.len_eq, endCheck_rom, endCheck_fault_eq, endCheck_halted_iff]
    intro hend
    by_cases hf : s.fault = none
    · exact .inl (.inr ⟨hf, hend.ge⟩)
    · exact .inr hf
  notBoth := by
    rw [endCheck_fault_eq, endCheck_halted_iff]
    rintro ⟨h | ⟨hf, -⟩, hne⟩
    · rw [hh hne] at h
      cases h
    · exact hne hf

/-- Settles O51: by the three ends of a cycle. The instruction keeps memory canonical (`exec_memWf`) and `pc` in range
(`exec_pc_le`), and the end check does the rest (`inv_endCheck`). -/
theorem everyStepKeepsTheInvariant : Obligations.EveryStepKeepsTheInvariant := by
  intro s t hs h
  obtain ⟨hf, ⟨-, rfl⟩ | ⟨hh, e | ⟨i, u, e, x, rfl⟩⟩⟩ := step_cases h
  · exact hs
  · obtain ⟨f, n, rfl, hn⟩ := fetchInstr_raised_moves_pc e
    have hle : n ≤ s.len := by
      have := hs.pcInRange
      omega
    exact ⟨hs.memWf, hle, fun _ => .inr (by simp), fun ⟨h, _⟩ => by simp [hh] at h⟩
  · obtain ⟨-, hlt, -, hpush⟩ := fetchInstr_done e
    refine inv_endCheck (exec_memWf x hs.memWf) ?_ fun hne => ?_
    · rw [State.len_eq, exec_rom x]
      exact exec_pc_le x hlt hpush
    · exact (exec_halted_of_fault (s := s.setPc (s.pc + 1)) hf x hne).trans hh

/-- Settles O52: the reset state has `pc` 0 and no memory, and is halted exactly when that is the end of its ROM. -/
theorem resetMeetsTheInvariant : Obligations.ResetMeetsTheInvariant := by
  have hreset (rom : List Slot) : (State.resetWith rom).Inv :=
    { memWf := Memory.wf_nil
      pcInRange := Nat.zero_le _
      pcAtEnd := fun hend => .inl (List.isEmpty_iff.mpr (List.length_eq_zero_iff.mp hend.symm))
      notBoth := fun ⟨_, hf⟩ => hf rfl }
  exact ⟨hreset [], hreset⟩

/-! Halting -/

/-- A completed instruction halts exactly when it is HALT. -/
theorem Completed.halted_iff {i : Instr} {s t : State} {base operands : List Val}
    (left : Completed i s t base operands) (hs : s.halted = false) : t.halted = true ↔ i = .halt := by
  obtain ⟨hne, hh⟩ | ⟨hi, hh⟩ := left.halted
  · rw [hh, hs]
    exact iff_of_false Bool.false_ne_true hne
  · exact iff_of_true hh hi

/-- Settles O33: a faulted next state is not halted (`faultingCycleOnlyPops`), and one without a fault is halted by its
instruction (`Completed.halted_iff`) or by the end check (`endCheck_halted_iff`). -/
theorem onlyHaltAndTheEndCheckHalt : Obligations.OnlyHaltAndTheEndCheckHalt := by
  intro s t h hh
  by_cases ht : t.fault = none
  · obtain ⟨hf, ⟨hh', -⟩ | ⟨-, e | ⟨i, u, e, x, rfl⟩⟩⟩ := step_cases h
    · rw [hh] at hh'
      cases hh'
    · exact absurd ht (fault_of_fetchInstr_raised e)
    · obtain ⟨-, -, ⟨rest, hd⟩, -⟩ := fetchInstr_done e
      rw [endCheck_fault_eq] at ht
      obtain ⟨base, operands, -, -, left⟩ := exec_completed x ht
      have hhalt : u.halted = true ↔ ∃ rest, decode (s.rom.drop s.pc) = .instr .halt rest := by
        rw [left.halted_iff hh, hd]
        simp
      have hlen : u.len = s.rom.length := by rw [State.len_eq, exec_rom x, State.setPc_rom]
      rw [endCheck_halted_iff, hhalt, hlen, endCheck_fault_eq, endCheck_pc]
      simp [ht]
  · obtain ⟨hnot, -⟩ := faultingCycleOnlyPops s t h ht
    simp [hnot, ht]

end Sys2Proof.Machine

/-! ### Proofs: the run driver, reset and the STATUS view (R34, R270, R273) -/

namespace Sys2Proof.Machine

/-! The run driver -/

theorem State.isRunning_iff {s : State} : s.isRunning = true ↔ s.Running := by
  simp [State.isRunning]

theorem State.isRunning_eq_false_iff {s : State} : s.isRunning = false ↔ s.halted = true ∨ s.fault ≠ none := by
  rw [← Bool.not_eq_true, State.isRunning_iff, not_and_or, Bool.not_eq_false]

/-- The driver stops in a state that is not running, and from there on the bound does not matter. -/
theorem drive_final {bound : Nat} {s t : State} (h : drive bound s = some t) :
    t.isRunning = false ∧ ∀ more, drive (bound + more) s = some t := by
  induction bound generalizing s with
  | zero =>
    cases hr : s.isRunning with
    | true => simp [drive, hr] at h
    | false =>
      obtain rfl : s = t := by simpa [drive, hr] using h
      exact ⟨hr, fun more => drive_of_not_running hr _⟩
  | succ bound ih =>
    cases hr : s.isRunning with
    | false =>
      obtain rfl : s = t := by simpa [drive, hr] using h
      exact ⟨hr, fun more => drive_of_not_running hr _⟩
    | true =>
      have hrun := State.isRunning_iff.mp hr
      obtain ⟨u, hu⟩ := step_next hrun.2
      rw [drive_succ_of_step hrun hu] at h
      obtain ⟨hstop, hmore⟩ := ih h
      refine ⟨hstop, fun more => ?_⟩
      rw [Nat.add_right_comm, drive_succ_of_step hrun hu, hmore]

/-- Settles O9: by induction on the bound (`drive_final`). -/
theorem finishedRunIsFinal : Obligations.FinishedRunIsFinal := by
  intro bound s t h
  obtain ⟨hstop, hmore⟩ := drive_final h
  exact ⟨State.isRunning_eq_false_iff.mp hstop, hmore⟩

/-! Reset and the STATUS view -/

theorem State.status_of_fault {s : State} {f : FaultStatus} (h : s.fault = some f) : s.status = .faulted := by
  rw [State.status, h]

theorem State.status_of_no_fault {s : State} (h : s.fault = none) :
    s.status = if s.halted then .halted else .running := by
  rw [State.status, h]

theorem State.cause_of_fault {s : State} {f : FaultStatus} (h : s.fault = some f) : s.cause = f.code := by
  rw [State.cause, h]

theorem State.cause_of_no_fault {s : State} (h : s.fault = none) : s.cause = 0 := by
  rw [State.cause, h]

/-- Settles O46: the view by the two fields it reads, the code by the fault's kind. -/
theorem statusReportsHaltAndFault : Obligations.StatusReportsHaltAndFault := by
  refine fun s => ⟨fun hf hh => ⟨?_, State.cause_of_no_fault hf⟩, fun hf hh => ⟨?_, State.cause_of_no_fault hf⟩,
    fun f hf => ⟨State.status_of_fault hf, ?_⟩⟩
  · rw [State.status_of_no_fault hf, hh]
    rfl
  · rw [State.status_of_no_fault hf, hh]
    rfl
  · rw [State.cause_of_fault hf]
    cases f <;> simp [FaultStatus.code]

/-- Settles O1: every field by its own lemma; a ROM is empty exactly when its length is 0. -/
theorem resetOfARomSetsEveryField : Obligations.ResetOfARomSetsEveryField := by
  refine ⟨rfl, fun rom => ?_⟩
  have hhalted : (State.resetWith rom).halted = true ↔ rom.length = 0 := by
    rw [State.resetWith_halted, List.isEmpty_iff, List.length_eq_zero_iff]
  refine ⟨rfl, rfl, rfl, rfl, Memory.read_nil, hhalted, rfl, rfl, ?_, State.cause_of_no_fault rfl⟩
  rw [State.status_of_no_fault rfl]
  simp only [hhalted]

end Sys2Proof.Machine

/-! ### Proofs: OVER and SWAP, DIV and MOD (R124, R125, R191, R195, R196)

One equation per instruction at `exec`, by the operands it finds. -/

namespace Sys2Proof.Machine

theorem exec_over_concat {s : State} {base : List Val} {a b : Val} (h : s.stack = base ++ [a, b]) :
    exec .overOp s = .next { s with stack := base ++ [a, b, a] } :=
  operate2_results_concat (fun a b => [a, b, a]) h

/-- Settles O17: the equation of each on two operands; with fewer, both underflow as every instruction does
(`tooFewEntriesUnderflowBeforeAnyOtherFault`). -/
theorem overCopiesAndSwapExchangesTheSecondEntry : Obligations.OverCopiesAndSwapExchangesTheSecondEntry := by
  refine ⟨by simp [encode, Instr.opcode, Instr.literals], by simp [encode, Instr.opcode, Instr.literals],
    fun s => ⟨fun base a b h => ?_, fun h => ?_⟩⟩
  · exact ⟨exec_over_concat h, exec_swap_concat h⟩
  · exact ⟨tooFewEntriesUnderflowBeforeAnyOtherFault .overOp s h, tooFewEntriesUnderflowBeforeAnyOtherFault .swap s h⟩

/-- A division by a nonzero divisor replaces both operands by its result (R195, R196). -/
theorem operate2_divided_concat {s : State} {base : List Val} {a b : Val} (f : Val → Val → Val)
    (h : s.stack = base ++ [a, b]) (hb : b ≠ 0) :
    (operate2 (divided f) s).outcome = .next { s with stack := base ++ [f a b] } := by
  rw [operate2_concat _ h, divided, if_neg hb]
  rfl

/-- A division by 0 raises DivisionByZero once both operands are popped (R191). -/
theorem operate2_divided_zero {s : State} {base : List Val} {a : Val} (f : Val → Val → Val)
    (h : s.stack = base ++ [a, 0]) :
    (operate2 (divided f) s).outcome = .next (State.raise (.divisionByZero a) { s with stack := base }) := by
  rw [operate2_concat _ h, divided, if_pos rfl]
  rfl

/-- Settles O37: `operate2_divided_concat`, with the specification's rounding in the remainder. -/
theorem divModByANonzeroDivisor : Obligations.DivModByANonzeroDivisor := by
  refine ⟨by simp [encode, Instr.opcode, Instr.literals], by simp [encode, Instr.opcode, Instr.literals],
    fun s base a b h hb => ⟨operate2_divided_concat _ h hb, ?_⟩⟩
  rw [← trunc_eq_towardZero]
  exact operate2_divided_concat rem h hb

/-- Settles O38: `operate2_divided_zero`, whatever the division. -/
theorem divisionByZeroFaults : Obligations.DivisionByZeroFaults :=
  fun _ _ _ h => ⟨operate2_divided_zero _ h, operate2_divided_zero _ h⟩

end Sys2Proof.Machine

/-! ### Proofs: LOAD and STORE (R50, R52, R140 to R142)

The two instructions by what their address translates to; a canonical memory is determined by what it reads as; and what
an address reads as is kept by every cycle but a STORE to it. -/

namespace Sys2Proof.Machine

/-! The two instructions -/

theorem addr_of_some {w : Val} {a : Nat} (h : address? w = some a) (s : State) : addr w s = .done a s := by
  rw [addr, h]

theorem addr_of_none {w : Val} (h : address? w = none) (s : State) : addr w s = raise (.illegalAddress w) s := by
  rw [addr, h]

theorem exec_load_concat {s : State} {base : List Val} {w : Val} {a : Nat} (h : s.stack = base ++ [w])
    (hw : address? w = some a) : exec .load s = .next { s with stack := base ++ [Memory.read s.mem a] } := by
  rw [exec, execLoad, operate1_concat _ h, addr_of_some hw]
  rfl

theorem exec_load_illegal {s : State} {base : List Val} {w : Val} (h : s.stack = base ++ [w])
    (hw : address? w = none) :
    exec .load s = .next { s with stack := base, fault := some (.illegalAddress w) } := by
  rw [exec, execLoad, operate1_concat _ h, addr_of_none hw]
  rfl

theorem exec_store_concat {s : State} {base : List Val} {w v : Val} {a : Nat} (h : s.stack = base ++ [w, v])
    (hw : address? w = some a) :
    exec .store s = .next { s with stack := base, mem := Memory.write s.mem a v } := by
  rw [exec, execStore, operate2_concat _ h, addr_of_some hw]
  simp [State.writeMem, pushAll]

theorem exec_store_illegal {s : State} {base : List Val} {w v : Val} (h : s.stack = base ++ [w, v])
    (hw : address? w = none) :
    exec .store s = .next { s with stack := base, fault := some (.illegalAddress w) } := by
  rw [exec, execStore, operate2_concat _ h, addr_of_none hw]
  rfl

/-- Settles O24: `exec_load_concat` at an address that is its own translation. -/
theorem loadPushesTheCellAtItsAddress : Obligations.LoadPushesTheCellAtItsAddress :=
  ⟨by simp [encode, Instr.opcode, Instr.literals], fun _ _ a h => exec_load_concat h (address?_natCast a)⟩

/-- Settles O25: `exec_store_concat`, and what a canonical memory reads as after its write. -/
theorem storeWritesOnlyTheCellAtItsAddress : Obligations.StoreWritesOnlyTheCellAtItsAddress := by
  refine ⟨by simp [encode, Instr.opcode, Instr.literals], fun s base w v a hm h hw => ⟨address?_eq_some.mp hw, ?_⟩⟩
  exact ⟨_, exec_store_concat h hw, Memory.read_write_same hm a v, fun b hb => Memory.read_write_of_ne hm v hb, rfl⟩

/-- Settles O26: such an address has no translation (`address?_eq_none`). -/
theorem addressesThatAreNotNaturalFault : Obligations.AddressesThatAreNotNaturalFault := by
  intro s base w v hw
  have hnone := address?_eq_none.mpr hw
  exact ⟨fun h => exec_load_illegal h hnone, fun h => exec_store_illegal h hnone⟩

/-! Canonical memories -/

/-- The first cell of a canonical memory does not read 0. -/
theorem Memory.read_head_ne_zero {a : Nat} {v : Val} {m : Memory} (hm : Memory.wf ((a, v) :: m)) :
    Memory.read ((a, v) :: m) a ≠ 0 := by
  obtain ⟨-, hne⟩ := hm
  rw [Memory.read_cell, if_pos rfl]
  exact hne (a, v) List.mem_cons_self

/-- The addresses of a canonical memory's later cells lie above its first. -/
theorem Memory.head_lt {a : Nat} {v : Val} {m : Memory} (hm : Memory.wf ((a, v) :: m)) : ∀ c ∈ m, a < c.1 := by
  obtain ⟨hrising, -⟩ := hm
  exact (List.pairwise_cons.mp hrising).1

/-- Two canonical memories that read alike do not begin one below the other: there the other reads 0. -/
theorem Memory.head_le_of_read_eq {a b : Nat} {v w : Val} {m n : Memory} (hm : Memory.wf ((a, v) :: m))
    (hn : Memory.wf ((b, w) :: n)) (h : ∀ c, Memory.read ((a, v) :: m) c = Memory.read ((b, w) :: n) c) : b ≤ a := by
  by_contra hlt
  have hbelow : ∀ c ∈ (b, w) :: n, a < c.1 :=
    List.forall_mem_cons.mpr ⟨not_le.mp hlt, fun c hc => (not_le.mp hlt).trans (Memory.head_lt hn c hc)⟩
  exact Memory.read_head_ne_zero hm ((h a).trans (Memory.read_below hbelow))

/-- A canonical memory is determined by what it reads as at every address. -/
theorem Memory.eq_of_read_eq {m n : Memory} (hm : Memory.wf m) (hn : Memory.wf n)
    (h : ∀ a, Memory.read m a = Memory.read n a) : m = n := by
  induction m generalizing n with
  | nil =>
    cases n with
    | nil => rfl
    | cons d n => exact absurd (h d.1).symm (Memory.read_head_ne_zero hn)
  | cons c m ih =>
    cases n with
    | nil => exact absurd (h c.1) (Memory.read_head_ne_zero hm)
    | cons d n =>
      obtain ⟨a, v⟩ := c
      obtain ⟨b, w⟩ := d
      obtain rfl : a = b :=
        (Memory.head_le_of_read_eq hn hm fun c => (h c).symm).antisymm (Memory.head_le_of_read_eq hm hn h)
      obtain rfl : v = w := by simpa using h a
      have htails : ∀ x, Memory.read m x = Memory.read n x := fun x => by
        by_cases hx : x = a
        · rw [hx, Memory.read_below (Memory.head_lt hm), Memory.read_below (Memory.head_lt hn)]
        · simpa [hx] using h x
      rw [ih (Memory.wf_tail hm) (Memory.wf_tail hn) htails]

/-- Settles O23: by induction on the first list (`Memory.eq_of_read_eq`). -/
theorem equalContentsAreEqualMemories : Obligations.EqualContentsAreEqualMemories :=
  fun _ _ => Memory.eq_of_read_eq

/-! Runs without a STORE to an address -/

/-- `m` is canonical, and the address `a` reads as `v`. -/
def Memory.Holds (a : Nat) (v : Val) (m : Memory) : Prop :=
  Memory.wf m ∧ Memory.read m a = v

/-- An instruction that is no STORE to `a` leaves what `a` reads as. -/
theorem exec_holds {i : Instr} {s t : State} {a : Nat} {v : Val} (h : exec i s = .next t)
    (other : i = .store → ∀ base w, s.stack ≠ base ++ [(a : Val), w]) (hs : Memory.Holds a v s.mem) :
    Memory.Holds a v t.mem := by
  obtain ⟨hwf, hread⟩ := hs
  refine ⟨exec_memWf h hwf, ?_⟩
  rcases exec_raises_or_completes h with ⟨f, hr⟩ | ⟨base, operands, found, -, left⟩
  · obtain ⟨base, popped, -, rfl⟩ := hr.onlyPops
    exact hread
  · obtain ⟨-, hm⟩ | ⟨hi, w, x, b, rfl, hb, hm⟩ := left.mem
    · rw [hm, hread]
    · have hne : a ≠ b := by
        rintro rfl
        exact other hi base x (address?_eq_some.mp hb ▸ found)
      rw [hm, Memory.read_write_of_ne hwf _ hne, hread]

/-- A cycle that executes no STORE to `a` leaves what `a` reads as. -/
theorem step_holds {s t : State} {a : Nat} {v : Val} (h : step s = .next t)
    (other : ∀ rest base w, decode (s.rom.drop s.pc) = .instr .store rest → s.stack ≠ base ++ [(a : Val), w])
    (hs : Memory.Holds a v s.mem) : Memory.Holds a v t.mem := by
  obtain ⟨-, ⟨-, rfl⟩ | ⟨-, e | ⟨i, u, e, x, rfl⟩⟩⟩ := step_cases h
  · exact hs
  · obtain ⟨f, n, rfl, -⟩ := fetchInstr_raised_moves_pc e
    exact hs
  · obtain ⟨-, -, ⟨rest, hd⟩, -⟩ := fetchInstr_done e
    rw [endCheck_mem]
    refine exec_holds x ?_ hs
    rintro rfl base w
    exact other rest base w hd

theorem NoStoreTo.holds {s t : State} {a : Nat} {v : Val} (h : NoStoreTo a s t) (hs : Memory.Holds a v s.mem) :
    Memory.Holds a v t.mem := by
  induction h with
  | here => exact hs
  | onward _ cycle other ih => exact step_holds cycle other ih

/-- The cycle of a LOAD at a natural address completes, with what the address reads as on top. -/
theorem step_load {s : State} {base : List Val} {a : Nat} {rest : List Slot} (hr : s.Running)
    (hd : decode (s.rom.drop s.pc) = .instr .load rest) (hs : s.stack = base ++ [(a : Val)]) :
    ∃ t, step s = .next t ∧ t.fault = none ∧ t.stack = base ++ [Memory.read s.mem a] := by
  have hf : s.fault = none := hr.2
  refine ⟨_, step_of_exec_next hr (fetchInstr_of_decode hd)
    (exec_load_concat (s := s.setPc (s.pc + 1)) hs (address?_natCast a)), ?_, ?_⟩
  · rw [endCheck_fault_eq]
    exact hf
  · rw [endCheck_stack]
    rfl

/-- The cycle of a STORE at a natural address writes that cell. -/
theorem step_store_holds {s t : State} {base : List Val} {a : Nat} {v : Val} {rest : List Slot} (hr : s.Running)
    (hm : Memory.wf s.mem) (hd : decode (s.rom.drop s.pc) = .instr .store rest) (hs : s.stack = base ++ [(a : Val), v])
    (h : step s = .next t) : Memory.Holds a v t.mem := by
  obtain ⟨u, hu, rfl⟩ := exec_of_step hr hd h
  rw [exec_store_concat (s := s.setPc (s.pc + 1)) hs (address?_natCast a), Host.Outcome.next.injEq] at hu
  rw [endCheck_mem, ← hu]
  exact ⟨Memory.wf_write hm a v, Memory.read_write_same hm a v⟩

/-- Settles O27: after the STORE (`step_store_holds`), and at reset, the address reads as the value in question, and a run
without a STORE to it keeps that (`NoStoreTo.holds`); a negative address has no translation. -/
theorem loadsSeeTheLatestStore : Obligations.LoadsSeeTheLatestStore := by
  refine ⟨?_, ?_, fun s base w v hw => ?_⟩
  · intro s t u base base' a v rest rest' hr hm hd hs h hrun hru hdu hsu
    obtain ⟨-, hread⟩ := hrun.holds (step_store_holds hr hm hd hs h)
    exact hread ▸ step_load hru hdu hsu
  · intro rom u base a rest hrun hru hdu hsu
    obtain ⟨-, hread⟩ := hrun.holds (v := 0) ⟨Memory.wf_nil, Memory.read_nil a⟩
    exact hread ▸ step_load hru hdu hsu
  · have hnone := address?_of_neg hw
    exact ⟨fun h => ⟨_, exec_load_illegal h hnone, rfl⟩, fun h => ⟨_, exec_store_illegal h hnone, rfl⟩⟩

end Sys2Proof.Machine

/-! ### Proofs: the branches (R150 to R160)

Each branch is the shared end of a branch once its operands are popped, with its condition in the specification's words. -/

namespace Sys2Proof.Machine

open SpecForm

/-! The conditions -/

theorem condZero_iff {a : Val} : condZero a = true ↔ a = 0 := beq_iff_eq

theorem condNonzero_iff {a : Val} : condNonzero a = true ↔ a ≠ 0 := bne_iff_ne

theorem condEqual_iff {a b : Val} : condEqual a b = true ↔ a = b := beq_iff_eq

theorem condGreater_iff {a b : Val} : condGreater a b = true ↔ a > b := decide_eq_true_iff

theorem condLess_iff {a b : Val} : condLess a b = true ↔ a < b := decide_eq_true_iff

/-! The three ends of a branch -/

section

variable {s : State} {base : List Val} {off : Val} {taken : Bool}

/-- The end of a branch that has popped its operands down to `base`. -/
def branchOutcome (taken : Bool) (off : Val) (base : List Val) (s : State) : Host.Outcome State Fault Refusal :=
  (branchTo taken off { s with stack := base }).outcome

theorem branchOutcome_jumps {n : Nat} (ht : taken = true) (htarget : (s.pc : Val) + off = n) (hn : n < s.rom.length) :
    branchOutcome taken off base s = .next { s with stack := base, pc := n } := by
  rw [branchOutcome, ht, branchTo_target (s := { s with stack := base }) htarget hn]
  rfl

theorem branchOutcome_faults (ht : taken = true) (houtside : ∀ n : Nat, (s.pc : Val) + off = n → s.rom.length ≤ n) :
    branchOutcome taken off base s =
      .next { s with stack := base, fault := some (.illegalJumpTarget (s.pc + off)) } := by
  rw [branchOutcome, ht, branchTo_illegal (s := { s with stack := base }) houtside]
  rfl

theorem branchOutcome_falls (ht : ¬taken = true) : branchOutcome taken off base s = .next { s with stack := base } := by
  rw [branchOutcome, Bool.eq_false_iff.mpr ht, branchTo_false]
  rfl

/-! The six branches -/

variable {a b : Val}

theorem exec_jmp_concat (h : s.stack = base ++ [off]) : exec .jmp s = branchOutcome true off base s :=
  congrArg Micro.outcome (branch0_concat _ h)

theorem exec_jz_concat (h : s.stack = base ++ [a, off]) : exec .jz s = branchOutcome (condZero a) off base s :=
  congrArg Micro.outcome (branch1_concat _ h)

theorem exec_jnz_concat (h : s.stack = base ++ [a, off]) : exec .jnz s = branchOutcome (condNonzero a) off base s :=
  congrArg Micro.outcome (branch1_concat _ h)

theorem exec_je_concat (h : s.stack = base ++ [a, b, off]) : exec .je s = branchOutcome (condEqual a b) off base s :=
  congrArg Micro.outcome (branch2_concat _ h)

theorem exec_jg_concat (h : s.stack = base ++ [a, b, off]) : exec .jg s = branchOutcome (condGreater a b) off base s :=
  congrArg Micro.outcome (branch2_concat _ h)

theorem exec_jl_concat (h : s.stack = base ++ [a, b, off]) : exec .jl s = branchOutcome (condLess a b) off base s :=
  congrArg Micro.outcome (branch2_concat _ h)

end

/-- Settles O28: each branch is a `branchOutcome`, which jumps when its condition holds and its target is a slot. -/
theorem takenBranchesJumpToTheirTarget : Obligations.TakenBranchesJumpToTheirTarget := by
  intro s base a b off n htarget hn
  have hjump {taken : Bool} (ht : taken = true) :
      branchOutcome taken off base s = .next { s with stack := base, pc := n } := branchOutcome_jumps ht htarget hn
  refine ⟨fun h => (exec_jmp_concat h).trans (hjump rfl), fun h => ⟨fun hc => ?_, fun hc => ?_⟩,
    fun h => ⟨fun hc => ?_, fun hc => ?_, fun hc => ?_⟩⟩
  · exact (exec_jz_concat h).trans (hjump (condZero_iff.mpr hc))
  · exact (exec_jnz_concat h).trans (hjump (condNonzero_iff.mpr hc))
  · exact (exec_je_concat h).trans (hjump (condEqual_iff.mpr hc))
  · exact (exec_jg_concat h).trans (hjump (condGreater_iff.mpr hc))
  · exact (exec_jl_concat h).trans (hjump (condLess_iff.mpr hc))

/-- Settles O29: a `branchOutcome` whose condition is false looks at no target (`branchOutcome_falls`). -/
theorem branchesNotTakenFallThrough : Obligations.BranchesNotTakenFallThrough := by
  refine fun s base a b off => ⟨fun h => ⟨fun hc => ?_, fun hc => ?_⟩,
    fun h => ⟨fun hc => ?_, fun hc => ?_, fun hc => ?_⟩⟩
  · exact (exec_jz_concat h).trans (branchOutcome_falls (mt condZero_iff.mp hc))
  · exact (exec_jnz_concat h).trans (branchOutcome_falls (mt condNonzero_iff.mp (not_not.mpr hc)))
  · exact (exec_je_concat h).trans (branchOutcome_falls (mt condEqual_iff.mp hc))
  · exact (exec_jg_concat h).trans (branchOutcome_falls (mt condGreater_iff.mp hc.not_gt))
  · exact (exec_jl_concat h).trans (branchOutcome_falls (mt condLess_iff.mp hc.not_gt))

/-- Settles O30: a `branchOutcome` whose condition holds raises the fault when its target is no slot. -/
theorem takenBranchOutsideRomFaults : Obligations.TakenBranchOutsideRomFaults := by
  intro s base a b off houtside
  have hfault {taken : Bool} (ht : taken = true) : branchOutcome taken off base s =
      .next { s with stack := base, fault := some (.illegalJumpTarget (s.pc + off)) } :=
    branchOutcome_faults ht houtside
  refine ⟨fun h => (exec_jmp_concat h).trans (hfault rfl), fun h => ⟨fun hc => ?_, fun hc => ?_⟩,
    fun h => ⟨fun hc => ?_, fun hc => ?_, fun hc => ?_⟩⟩
  · exact (exec_jz_concat h).trans (hfault (condZero_iff.mpr hc))
  · exact (exec_jnz_concat h).trans (hfault (condNonzero_iff.mpr hc))
  · exact (exec_je_concat h).trans (hfault (condEqual_iff.mpr hc))
  · exact (exec_jg_concat h).trans (hfault (condGreater_iff.mpr hc))
  · exact (exec_jl_concat h).trans (hfault (condLess_iff.mpr hc))

/-! The cycle of a branch -/

/-- Stacks with as many entries on top of their bases are equal exactly when the bases and the entries are. -/
theorem append_eq_append_iff_of_length {xs ys us vs : List Val} (h : us.length = vs.length) :
    xs ++ us = ys ++ vs ↔ xs = ys ∧ us = vs :=
  ⟨fun e => List.append_inj' e h, fun ⟨hbase, htop⟩ => hbase ▸ htop ▸ rfl⟩

/-- A branch that completes found its operands, and its condition is `Taken`. -/
theorem exec_branch_end {i : Instr} {s t : State} (hi : i.isBranch = true) (h : exec i s = .next t)
    (hf : t.fault = none) :
    ∃ base off taken, (taken = true ↔ Taken i s.stack) ∧ BranchEnd taken off { s with stack := base } t := by
  cases i with
  | jmp =>
    rcases branch0_cases h with ⟨-, rfl⟩ | ⟨base, off, hs, e⟩
    · cases hf
    · exact ⟨base, off, _, by simp [Taken, condAlways], e⟩
  | jz =>
    rcases branch1_cases h with ⟨-, rfl⟩ | ⟨base, a, off, hs, e⟩
    · cases hf
    · exact ⟨base, off, _, by simp [Taken, hs, append_eq_append_iff_of_length, condZero_iff], e⟩
  | jnz =>
    rcases branch1_cases h with ⟨-, rfl⟩ | ⟨base, a, off, hs, e⟩
    · cases hf
    · exact ⟨base, off, _, by simp [Taken, hs, append_eq_append_iff_of_length, condNonzero_iff], e⟩
  | je =>
    rcases branch2_cases h with ⟨-, rfl⟩ | ⟨base, a, b, off, hs, e⟩
    · cases hf
    · exact ⟨base, off, _, by simpa [Taken, hs, append_eq_append_iff_of_length, condEqual_iff] using eq_comm, e⟩
  | jg =>
    rcases branch2_cases h with ⟨-, rfl⟩ | ⟨base, a, b, off, hs, e⟩
    · cases hf
    · exact ⟨base, off, _, by simp [Taken, hs, append_eq_append_iff_of_length, condGreater_iff], e⟩
  | jl =>
    rcases branch2_cases h with ⟨-, rfl⟩ | ⟨base, a, b, off, hs, e⟩
    · cases hf
    · exact ⟨base, off, _, by simp [Taken, hs, append_eq_append_iff_of_length, condLess_iff], e⟩
  | _ => exact absurd hi Bool.false_ne_true

/-- Settles O31: the first clause by `branchOutcome_faults`; a completed branch that is taken ends inside ROM, where the
end check does nothing, and one that is not leaves `pc` after its opcode. -/
theorem noBranchEndsARunByJumpingPastTheEnd : Obligations.NoBranchEndsARunByJumpingPastTheEnd := by
  constructor
  · intro s base off target hs htarget hrange
    have houtside : ∀ n : Nat, (s.pc : Val) + off = n → s.rom.length ≤ n := fun n hn => by
      have : target = n := by exact_mod_cast htarget.symm.trans hn
      omega
    exact ⟨_, (exec_jmp_concat hs).trans (branchOutcome_faults rfl houtside), by rw [htarget]⟩
  · intro s t i rest hr hi hd h hf
    have hlt := pc_lt_of_decode hd
    obtain ⟨u, hu, rfl⟩ := exec_of_step hr hd h
    rw [endCheck_fault_eq] at hf
    obtain ⟨hh, hs⟩ := hr
    obtain ⟨base, off, taken, htaken, hend⟩ := exec_branch_end hi hu hf
    rw [State.setPc_stack] at htaken
    rw [← htaken]
    rcases hend with ⟨rfl, rfl⟩ | ⟨rfl, n, -, hn, rfl⟩ | ⟨-, -, rfl⟩
    · refine ⟨fun h => absurd h Bool.false_ne_true, fun _ => ⟨endCheck_pc _, ?_⟩⟩
      have hlast : s.rom.length ≤ s.pc + 1 ↔ s.pc + 1 = s.rom.length := by omega
      simpa [endCheck_halted_iff, State.len_eq, hh, hs] using hlast
    · rw [endCheck_inside hn]
      exact ⟨fun _ => ⟨hn, hh⟩, fun h => absurd rfl h⟩
    · cases hf

end Sys2Proof.Machine

/-! ### Proofs: the entries below (R26)

A micro-operation that does not run out of entries answers the same with further entries below the stack, and leaves them
there. Popping does, whatever comes after the pops does, and two in order do; so every instruction does, and the cycle. -/

namespace Sys2Proof.Machine

/-- A state with the entries `below` put under its stack. -/
def State.above (below : List Val) (s : State) : State :=
  { s with stack := below ++ s.stack }

/-- A micro-operation's answer with further entries under the stack of its state. -/
def Micro.above {α : Type} (below : List Val) : Micro α → Micro α
  | .done a s => .done a (s.above below)
  | .raised s => .raised (s.above below)

/-- A micro-operation ran out of entries. -/
def Micro.Underflows {α : Type} (m : Micro α) : Prop :=
  ∃ s, m = .raised s ∧ s.fault = some .stackUnderflow

/-- A micro-operation that, unless it runs out of entries, answers the same whatever lies below the stack, and leaves that
as it found it. -/
def DepthBlind {α : Type} (m : State → Micro α) : Prop :=
  ∀ (below : List Val) (s : State), ¬(m s).Underflows → m (s.above below) = (m s).above below

/-! Micro-operations -/

theorem DepthBlind.andThen {α β : Type} {m : State → Micro α} {k : α → State → Micro β} (hm : DepthBlind m)
    (hk : ∀ a, DepthBlind (k a)) : DepthBlind fun s => (m s).andThen k := by
  intro below s h
  beta_reduce at h ⊢
  have hms : m (s.above below) = (m s).above below :=
    hm below s fun ⟨u, e, hu⟩ => h ⟨u, by rw [e, Micro.andThen_raised], hu⟩
  rw [hms]
  cases e : m s with
  | done a u =>
    rw [e] at h
    exact hk a below u h
  | raised u => rfl

/-- Pop takes the same top, for the entries below lie under the rest of the stack. -/
theorem depthBlind_pop : DepthBlind pop := by
  intro below s h
  rcases pop_cases s with ⟨-, e⟩ | ⟨base, v, hs, e⟩
  · exact absurd ⟨_, e, State.raise_fault _ _⟩ h
  · have habove : (s.above below).stack = below ++ base ++ [v] := by
      rw [State.above, hs, List.append_assoc]
    rw [e, pop_concat habove]
    rfl

theorem depthBlind_results (rs : List Val) : DepthBlind (results rs) := fun _ _ _ => rfl

theorem pushAll_above (rs below : List Val) (s : State) : pushAll rs (s.above below) = (pushAll rs s).above below := by
  simp [pushAll, State.above]

theorem depthBlind_pushResults (rs : List Val) : DepthBlind (pushResults rs) := fun below s _ =>
  congrArg (Micro.done ()) (pushAll_above rs below s)

theorem depthBlind_addr (w : Val) : DepthBlind (addr w) := by
  intro below s _
  rcases addr_cases w s with ⟨h, e⟩ | ⟨a, h, e⟩
  · rw [e, addr_of_none h]
    rfl
  · rw [e, addr_of_some h]
    rfl

theorem depthBlind_divided (f : Val → Val → Val) (a b : Val) : DepthBlind (divided f a b) := by
  intro below s _
  unfold divided
  split <;> rfl

theorem depthBlind_branchTo (taken : Bool) (off : Val) : DepthBlind (branchTo taken off) := by
  intro below s _
  cases taken with
  | false => rfl
  | true =>
    cases e : jumpTarget? ((s.pc : Val) + off) s.len with
    | none =>
      have hn := jumpTarget?_eq_none.mp e
      rw [branchTo_illegal hn, branchTo_illegal (s := s.above below) hn]
      rfl
    | some n =>
      obtain ⟨hv, hn⟩ := jumpTarget?_eq_some.mp e
      rw [branchTo_target hv hn, branchTo_target (s := s.above below) hv hn]
      rfl

/-! The combinators -/

theorem depthBlind_operate1 {f : Val → State → Micro (List Val)} (hf : ∀ a, DepthBlind (f a)) :
    DepthBlind (operate1 f) :=
  depthBlind_pop.andThen fun a => (hf a).andThen depthBlind_pushResults

theorem depthBlind_operate2 {f : Val → Val → State → Micro (List Val)} (hf : ∀ a b, DepthBlind (f a b)) :
    DepthBlind (operate2 f) :=
  depthBlind_pop.andThen fun b => depthBlind_pop.andThen fun a => (hf a b).andThen depthBlind_pushResults

theorem depthBlind_branch0 (taken : Bool) : DepthBlind (branch0 taken) :=
  depthBlind_pop.andThen fun off => depthBlind_branchTo taken off

theorem depthBlind_branch1 (cond : Val → Bool) : DepthBlind (branch1 cond) :=
  depthBlind_pop.andThen fun off => depthBlind_pop.andThen fun a => depthBlind_branchTo (cond a) off

theorem depthBlind_branch2 (cond : Val → Val → Bool) : DepthBlind (branch2 cond) :=
  depthBlind_pop.andThen fun off => depthBlind_pop.andThen fun b => depthBlind_pop.andThen fun a =>
    depthBlind_branchTo (cond a b) off

/-! Instructions -/

/-- The next state of a depth-blind instruction that does not underflow, above any entries. -/
theorem DepthBlind.outcome_above {m : State → Micro Unit} (hm : DepthBlind m) {s t : State}
    (h : (m s).outcome = .next t) (ht : t.fault ≠ some .stackUnderflow) (below : List Val) :
    (m (s.above below)).outcome = .next (t.above below) := by
  have hend {u : State} (e : m s = .raised u) : u = t := by simpa [e] using h
  rw [hm below s fun ⟨u, e, hu⟩ => ht (hend e ▸ hu)]
  cases e : m s with
  | raised u => rw [← hend e, Micro.above, Micro.outcome_raised]
  | done a u =>
    obtain rfl : u = t := by simpa [e] using h
    rfl

/-- Every instruction that does not underflow answers the same above any entries. -/
theorem exec_above {i : Instr} {s t : State} (h : exec i s = .next t) (ht : t.fault ≠ some .stackUnderflow)
    (below : List Val) : exec i (s.above below) = .next (t.above below) := by
  cases i with
  | halt =>
    obtain rfl : s.setHalted = t := by simpa [exec, execHalt] using h
    rfl
  | nop => exact ((depthBlind_results []).andThen depthBlind_pushResults).outcome_above h ht below
  | push imm =>
    have hm : DepthBlind fun s => pushResults [imm] (s.setPc (s.pc + 1)) := fun below s =>
      depthBlind_pushResults [imm] below (s.setPc (s.pc + 1))
    exact hm.outcome_above h ht below
  | drop | dup | not => exact (depthBlind_operate1 fun _ => depthBlind_results _).outcome_above h ht below
  | overOp | swap | add | sub | mul | and | or =>
    exact (depthBlind_operate2 fun _ _ => depthBlind_results _).outcome_above h ht below
  | out => exact (depthBlind_operate1 fun _ _ _ _ => rfl).outcome_above h ht below
  | div | mod => exact (depthBlind_operate2 (depthBlind_divided _)).outcome_above h ht below
  | load =>
    exact (depthBlind_operate1 fun w => (depthBlind_addr w).andThen fun _ _ _ _ => rfl).outcome_above h ht below
  | store =>
    exact (depthBlind_operate2 fun w _ => (depthBlind_addr w).andThen fun _ _ _ _ => rfl).outcome_above h ht below
  | jmp => exact (depthBlind_branch0 _).outcome_above h ht below
  | jz | jnz => exact (depthBlind_branch1 _).outcome_above h ht below
  | je | jg | jl => exact (depthBlind_branch2 _).outcome_above h ht below

/-! The cycle -/

/-- The fetch half fails the same above any entries: it reads ROM at `pc` alone. -/
theorem fetchInstr_above_of_raised {s t : State} (h : fetchInstr s = .raised t) (below : List Val) :
    fetchInstr (s.above below) = .raised (t.above below) := by
  rcases fetchInstr_raised h with ⟨hs, rfl⟩ | ⟨hs, rfl⟩ | ⟨v, hs, hd, rfl⟩ | ⟨v, hs, hd, hl, rfl⟩ | ⟨v, hs, hd, hl, rfl⟩
  · exact fetchInstr_end (s := s.above below) hs
  · exact fetchInstr_bad (s := s.above below) hs
  · exact fetchInstr_illegal (s := s.above below) hs hd
  · obtain rfl := decodeOpcode_eq_s2Push.mp hd
    exact fetchInstr_push_end (s := s.above below) hs hl
  · obtain rfl := decodeOpcode_eq_s2Push.mp hd
    exact fetchInstr_push_bad (s := s.above below) hs hl

theorem endCheck_above (below : List Val) (s : State) : endCheck (s.above below) = (endCheck s).above below := by
  unfold endCheck
  rw [apply_ite (State.above below)]
  rfl

/-- A step that does not underflow answers the same above any entries. -/
theorem step_above {s t : State} (h : step s = .next t) (ht : t.fault ≠ some .stackUnderflow) (below : List Val) :
    step (s.above below) = .next (t.above below) := by
  obtain ⟨hf, ⟨hh, rfl⟩ | ⟨hh, e | ⟨i, u, e, x, rfl⟩⟩⟩ := step_cases h
  · exact step_of_halted hf hh
  · exact step_of_fetch_raised ⟨hh, hf⟩ (fetchInstr_above_of_raised e below)
  · obtain ⟨-, -, ⟨rest, hd⟩, -⟩ := fetchInstr_done e
    rw [endCheck_fault_eq] at ht
    rw [← endCheck_above]
    exact step_of_exec_next ⟨hh, hf⟩ (fetchInstr_of_decode (s := s.above below) hd) (exec_above x ht below)

/-- Settles O21: `step_above`, from the micro-operations up. -/
theorem entriesBelowAreNeitherReadNorWritten : Obligations.EntriesBelowAreNeitherReadNorWritten :=
  fun _ _ below h ht => step_above h ht below

end Sys2Proof.Machine
